-- ==== Sys2Proof/Word.lean ====
section
/-! DEFINITION. The word types of MX25328-CORE (00_scope.md R7, R8): bytes, 7-bit segment codes, 4-bit nibbles and
binary64 values. Bits are numbered LSB-0 (R8). Nothing here computes: the bit-field helpers stand in
Machine/Operands.lean and the binary64 operations in Machine/Float.lean. -/
namespace Sys2Proof

/-- A byte, an 8-bit unsigned value (R8, `BYTE_WIDTH` of R7). -/
abbrev Byte := BitVec 8

/-- A segment code, 7 bits (R41, `SEGCODE_WIDTH` of R7). -/
abbrev SegCode := BitVec 7

/-- Half a byte: the high nibble `b[7:4]` or the low nibble `b[3:0]` (R8). -/
abbrev Nibble := BitVec 4

/-- An f64 of R8, held as its binary64 bit pattern, sign bit first. Two zeros (`+0.0`, `-0.0`) are two values. -/
structure F64 where
  bits : BitVec 64
deriving DecidableEq, Repr

end Sys2Proof
end

