-- ==== Sys2Proof/Config.lean ====
section
/-! DEFINITION. The parameters of a build (00_scope.md R7). Fixed by R7 and written as literals in the model: 14 bytes a
frame, 8 bits a byte, sync nibble `0001`, 12 table entries, 7-bit codes. Open, and held here: `SEGTAB` (R47, decision D3)
and `CARRY_CAP` (R12, decision D4). -/
namespace Sys2Proof

/-- `SEGTAB`, "a fixed 12-entry table" of 7-bit patterns (R47). It carries the one law the source states, that no two
entries share a pattern, so a table that breaks it cannot be built. -/
structure SegTab where
  codes : Vector SegCode 12
  distinct : codes.toList.Nodup
deriving DecidableEq, Repr

/-- What is fixed before reset and written by no operation (R7, R16): the table and the capacity of `carry`. -/
structure Build where
  /-- `SEGTAB` (R47). -/
  segtab : SegTab
  /-- `CARRY_CAP` (R12): `none` is an unbounded carry, `some n` one of `n` bytes. -/
  carryCap : Option Nat
deriving DecidableEq, Repr

/-- The open parameter behind the table of the block after reset (R47: the source gives none of the twelve patterns).
An arrangement of the 128 codes that nothing in Lean can evaluate: its first twelve places are `SEGTAB`, and every
injective table is the beginning of some arrangement, so no admissible table is left out. DESIGN CHOICE
(notes/assumptions/1.md). -/
opaque Config.codeArrangement : Equiv.Perm SegCode

/-- The build's table: entry `k` is the code at place `k` of the unknown arrangement (R47, D3). -/
def Config.segtab : SegTab where
  codes := Vector.ofFn fun k : Fin 12 => Config.codeArrangement (BitVec.ofNat 7 k.val)
  distinct := by
    rw [Vector.toList_ofFn, List.nodup_ofFn]
    intro i j h
    have h2 := congrArg BitVec.toNat (Config.codeArrangement.injective h)
    simp only [BitVec.toNat_ofNat] at h2
    omega

/-- The build that `State.reset` holds: the unknown table, and the default `CARRY_CAP = none` (R12, D4). -/
def Config.build : Build where
  segtab := Config.segtab
  carryCap := none

end Sys2Proof
end

