-- ==== Sys2Proof/Machine/Data.lean ====
section
/-! DEFINITION. The data the Decoder produces: glyphs (R83), the 22 mode flags and the unit of a Measurement (R110,
R103), the block's one error (R130), and the result of a DECODE (R80). -/
namespace Sys2Proof.Machine

/-- What a table lookup finds (R83): the source's enumeration "Digit(0..9), Blank, Overload". -/
inductive Glyph where
  | digit (d : Fin 10)
  | blank
  | overload
deriving DecidableEq, Repr

/-- The answer of the lookup for one digit group: its glyph and the value `v[g]` DECODE uses (R80 step 1, R92). -/
structure Tube where
  glyph : Glyph
  value : F64
deriving DecidableEq, Repr

/-- The 22 one-bit flags of a Measurement, under the spec's names and in frame order (R110). `m` is milli and `M` mega;
`F` farad, `A` amp, `V` volt, `mV` millivolt (R44). -/
structure Flags where
  ac : Bool
  dc : Bool
  auto : Bool
  rs232 : Bool
  u : Bool
  n : Bool
  k : Bool
  diode : Bool
  m : Bool
  percent : Bool
  M : Bool
  beep : Bool
  F : Bool
  ohm : Bool
  rel : Bool
  hold : Bool
  A : Bool
  V : Bool
  Hz : Bool
  battery : Bool
  mV : Bool
  celsius : Bool
deriving DecidableEq, Repr

/-- The six units of R103. An absent unit is `none` of `Option MeterUnit`. -/
inductive MeterUnit where
  | ohm
  | ampere
  | volt
  | hertz
  | celsius
  | farad
deriving DecidableEq, Repr

/-- The Decoder's successful output (R110). The sign, the three decimal flags, the glyphs and the codes are not fields. -/
structure Measurement where
  number : F64
  unit : Option MeterUnit
  flags : Flags
deriving DecidableEq, Repr

/-- The block's one error kind with its payload (R130, R131): the code that matched nothing and the two whole source
bytes. An output of the block, not a fault of the model. -/
inductive DecodeError where
  | unrecognizedSegmentPattern (code : SegCode) (msb lsb : Byte)
deriving DecidableEq, Repr

/-- The result of one DECODE (R80). -/
inductive Result where
  | ok (measurement : Measurement)
  | err (error : DecodeError)
deriving DecidableEq, Repr

/-- The result of the lookup for one digit group (R80 step 1). -/
inductive GroupResult where
  | tube (tube : Tube)
  | err (error : DecodeError)
deriving DecidableEq, Repr

end Sys2Proof.Machine
end

