-- ==== Sys2Proof/Machine/Float.lean ====
section
/-! DEFINITION. IEEE 754 binary64 arithmetic, rounding to nearest, ties to even (41_decoder.md R98, decision D7). Every
operation computes the exact result as a quotient of naturals times a power of two and rounds it once (`F64.round`). -/
namespace Sys2Proof

/-- What a binary64 pattern stands for: `fin neg m e` is `(-1)^neg * m * 2^e`. -/
inductive F64.Parts where
  | nan
  | inf (neg : Bool)
  | fin (neg : Bool) (m : Nat) (e : Int)
deriving DecidableEq, Repr

/-- The sign bit, bit 63. -/
def F64.neg (x : F64) : Bool := x.bits.getLsbD 63

/-- The biased exponent field, bits 62 to 52. -/
def F64.expField (x : F64) : Nat := x.bits.toNat / 2 ^ 52 % 2 ^ 11

/-- The fraction field, bits 51 to 0. -/
def F64.fracField (x : F64) : Nat := x.bits.toNat % 2 ^ 52

/-- The reading of a pattern. A zero exponent field is a subnormal or a zero, with no hidden bit. -/
def F64.parts (x : F64) : F64.Parts :=
  if x.expField = 2047 then
    if x.fracField = 0 then .inf x.neg else .nan
  else if x.expField = 0 then .fin x.neg x.fracField (-1074)
  else .fin x.neg (2 ^ 52 + x.fracField) (x.expField - 1075)

/-- A pattern from a sign and its 63 lower bits. -/
def F64.ofMagnitude (neg : Bool) (magnitude : Nat) : F64 :=
  ⟨BitVec.ofNat 64 (magnitude + if neg then 2 ^ 63 else 0)⟩

/-- The 63 lower bits of an infinity. -/
def F64.infMagnitude : Nat := 2047 * 2 ^ 52

/-- A zero with the given sign (`-0.0` is `8000000000000000`, R100). -/
def F64.zero (neg : Bool) : F64 := F64.ofMagnitude neg 0

/-- An infinity with the given sign (R8, R101). -/
def F64.inf (neg : Bool) : F64 := F64.ofMagnitude neg F64.infMagnitude

/-- The NaN the operations answer where IEEE 754 gives a NaN. No DECODE reaches it (R94, R102), and the spec states no
payload for it: the quiet NaN with an empty payload. DESIGN CHOICE (notes/assumptions/9.md). -/
def F64.nan : F64 := F64.ofMagnitude false (F64.infMagnitude + 2 ^ 51)

/-- `n / d` rounded to the nearest natural, ties to the even one. -/
def F64.roundQuotient (n d : Nat) : Nat :=
  if d < 2 * (n % d) ∨ (2 * (n % d) = d ∧ n / d % 2 = 1) then n / d + 1 else n / d

/-- The exponent of the last place of the result whose exact value is `num / den * 2^e`: 53 significant bits, and not
below the subnormals' `-1074`. -/
def F64.lastPlace (num den : Nat) (e : Int) : Int :=
  max (e + (Nat.log2 (num / den) : Int) - 52) (-1074)

/-- The binary64 value nearest to `(-1)^neg * (num / den) * 2^e`, ties to even (R98), for `1 ≤ num / den` or `num = 0`.
The significand and the exponent field are joined by addition, so a significand that rounds up to `2^53` carries into
the exponent, and what exceeds the largest finite value is an infinity. -/
def F64.round (neg : Bool) (num den : Nat) (e : Int) : F64 :=
  if num = 0 then F64.zero neg
  else
    let f := F64.lastPlace num den e
    let q := F64.roundQuotient (num * 2 ^ (e - f).toNat) (den * 2 ^ (f - e).toNat)
    F64.ofMagnitude neg (min ((f + 1074).toNat * 2 ^ 52 + q) F64.infMagnitude)

/-- The binary64 value nearest to a natural: the decimal literals of R8 and the digits of R92. -/
def F64.ofNat (n : Nat) : F64 := F64.round false n 1 0

/-- `fneg` flips the sign bit and nothing else (R95, R98). -/
def F64.fneg (x : F64) : F64 := ⟨x.bits ^^^ 0x8000000000000000#64⟩

/-- A significand with its sign. -/
def F64.signed (neg : Bool) (m : Nat) : Int := if neg then -(m : Int) else m

/-- `fadd` (R98). An exact zero sum is `+0.0` unless both terms are negative zeros. -/
def F64.fadd (x y : F64) : F64 :=
  match x.parts, y.parts with
  | .nan, _ => F64.nan
  | _, .nan => F64.nan
  | .inf a, .inf b => if a = b then F64.inf a else F64.nan
  | .inf a, .fin _ _ _ => F64.inf a
  | .fin _ _ _, .inf b => F64.inf b
  | .fin a m e, .fin b m' e' =>
    let f := min e e'
    let sum := F64.signed a (m * 2 ^ (e - f).toNat) + F64.signed b (m' * 2 ^ (e' - f).toNat)
    if sum = 0 then F64.zero (a && b) else F64.round (decide (sum < 0)) sum.natAbs 1 f

/-- `fmul` (R98). -/
def F64.fmul (x y : F64) : F64 :=
  match x.parts, y.parts with
  | .nan, _ => F64.nan
  | _, .nan => F64.nan
  | .inf a, .inf b => F64.inf (a ^^ b)
  | .inf a, .fin b m _ => if m = 0 then F64.nan else F64.inf (a ^^ b)
  | .fin a m _, .inf b => if m = 0 then F64.nan else F64.inf (a ^^ b)
  | .fin a m e, .fin b m' e' => F64.round (a ^^ b) (m * m') 1 (e + e')

/-- `fdiv` (R98). The dividend is scaled by `2^108` so that the quotient keeps more than 53 bits before it is rounded. -/
def F64.fdiv (x y : F64) : F64 :=
  match x.parts, y.parts with
  | .nan, _ => F64.nan
  | _, .nan => F64.nan
  | .inf _, .inf _ => F64.nan
  | .inf a, .fin b _ _ => F64.inf (a ^^ b)
  | .fin a _ _, .inf b => F64.zero (a ^^ b)
  | .fin a m e, .fin b m' e' =>
    if m' = 0 then (if m = 0 then F64.nan else F64.inf (a ^^ b))
    else F64.round (a ^^ b) (m * 2 ^ 108) m' (e - e' - 108)

/-- Not a NaN. -/
def F64.isNumber (x : F64) : Bool := x.parts != .nan

/-- The rational a finite value stands for, none for an infinity or a NaN (the map between `number` and the ideal value
of R99). -/
def F64.toRat? (x : F64) : Option ℚ :=
  match x.parts with
  | .fin a m e => some ((F64.signed a m : ℚ) * (2 : ℚ) ^ e)
  | _ => none

end Sys2Proof
end

