-- ==== Sys2Proof/Syntax.lean ====
section
/-! DEFINITION. The syntax: frames, the inputs of the block, and `Instr`, one constructor per row of
spec/opcode_table.json (30_encoding.md R50). -/
namespace Sys2Proof

/-- A frame, "exactly 14 ordered bytes" (R37, R80): a sequence of another length cannot be written. `b0` is the byte
received first (R21). -/
structure Frame where
  b0 : Byte
  b1 : Byte
  b2 : Byte
  b3 : Byte
  b4 : Byte
  b5 : Byte
  b6 : Byte
  b7 : Byte
  b8 : Byte
  b9 : Byte
  b10 : Byte
  b11 : Byte
  b12 : Byte
  b13 : Byte
deriving DecidableEq, Repr

/-- The nine bits of a digit group's byte pair that do not enter its segment code (R41): `msb[7:4]`, the point or sign
bit `msb[3]`, and `lsb[7:4]`. -/
structure GroupPad where
  msbHigh : Nibble
  point : Bool
  lsbHigh : Nibble
deriving DecidableEq, Repr

/-- The interface an input arrives on. It alone selects the operation (R50): the reset input, the burst input of the
Framer, the frame input of the Decoder, and the input of the Decoder's table lookup (R82, R83). -/
inductive Port where
  | reset
  | burst
  | frame
  | group
deriving DecidableEq, Repr

/-- One input of the block: the interface it arrives on and its bytes, the oldest first (R20). -/
structure Stimulus where
  port : Port
  bytes : List Byte
deriving DecidableEq, Repr

/-- One constructor per row of spec/opcode_table.json, in the table's order. `push`, `reset` and `decode` are the three
operations of R2. The other rows are patterns the operations recognise, taken as inputs of their own: the sync byte
(R36), a digit group whose code is `SEGTAB[k]` (R47), and a digit group whose code is in no entry (R49). -/
inductive Instr where
  /-- PUSH: one burst of any length (R60). -/
  | push (newBytes : List Byte)
  /-- RESET (R75). -/
  | reset
  /-- DECODE of one frame (R80). -/
  | decode (frame : Frame)
  /-- SYNC: a byte `0001xxxx` with its free low nibble (R36). -/
  | sync (low : Nibble)
  /-- SEGTAB[0]: a digit group with the code of `Digit(0)`, and the bits beside the code. -/
  | segtab0 (pad : GroupPad)
  /-- SEGTAB[1]: `Digit(1)`. -/
  | segtab1 (pad : GroupPad)
  /-- SEGTAB[2]: `Digit(2)`. -/
  | segtab2 (pad : GroupPad)
  /-- SEGTAB[3]: `Digit(3)`. -/
  | segtab3 (pad : GroupPad)
  /-- SEGTAB[4]: `Digit(4)`. -/
  | segtab4 (pad : GroupPad)
  /-- SEGTAB[5]: `Digit(5)`. -/
  | segtab5 (pad : GroupPad)
  /-- SEGTAB[6]: `Digit(6)`. -/
  | segtab6 (pad : GroupPad)
  /-- SEGTAB[7]: `Digit(7)`. -/
  | segtab7 (pad : GroupPad)
  /-- SEGTAB[8]: `Digit(8)`. -/
  | segtab8 (pad : GroupPad)
  /-- SEGTAB[9]: `Digit(9)`. -/
  | segtab9 (pad : GroupPad)
  /-- SEGTAB[10]: `Blank`. -/
  | segtab10 (pad : GroupPad)
  /-- SEGTAB[11]: `Overload`. -/
  | segtab11 (pad : GroupPad)
  /-- ILLEGAL_SEGCODE: a digit group whose code equals no entry of the table (R49), as its two whole source bytes. -/
  | illegalSegcode (msb lsb : Byte)
deriving DecidableEq, Repr

end Sys2Proof
end

