-- ==== Sys2Proof/Machine/Operands.lean ====
section
/-! DEFINITION. The operand forms: the sync predicate (R36), the fields of a byte, of a digit group and of a frame (R38 to
R44), the table lookup (R83), glyph values (R92) and the numeric assembly (R93 to R97). -/
namespace Sys2Proof

/-! ### Bytes and digit groups -/

/-- `b[7:4]` (R8). -/
def highNibble (b : Byte) : Nibble := b.extractLsb' 4 4

/-- `b[3:0]` (R8). -/
def lowNibble (b : Byte) : Nibble := b.extractLsb' 0 4

/-- The byte `hi : lo`. -/
def byteOf (hi lo : Nibble) : Byte := hi ++ lo

/-- `sync(b) := (b[7:4] = 0b0001)` (R36). -/
def isSync (b : Byte) : Bool := highNibble b == 0b0001#4

/-- The sync byte `0001xxxx` with the given free low nibble (R36). -/
def syncByte (low : Nibble) : Byte := byteOf 0b0001#4 low

/-- `code = msb[2:0] : lsb[3:0]` (R41, R82). -/
def segCode (msb lsb : Byte) : SegCode := msb.extractLsb' 0 3 ++ lsb.extractLsb' 0 4

/-- The bits of a digit group beside its code (R41). -/
def groupPad (msb lsb : Byte) : GroupPad where
  msbHigh := highNibble msb
  point := msb.getLsbD 3
  lsbHigh := highNibble lsb

/-- The first byte of a digit group with the given code and other bits: `msb[2:0] = code[6:4]` (R41, R51). -/
def groupMsb (code : SegCode) (pad : GroupPad) : Byte :=
  byteOf pad.msbHigh (BitVec.ofBool pad.point ++ code.extractLsb' 4 3)

/-- The second byte of such a digit group: `lsb[3:0] = code[3:0]` (R41, R51). -/
def groupLsb (code : SegCode) (pad : GroupPad) : Byte := byteOf pad.lsbHigh (code.extractLsb' 0 4)

/-! ### Frames -/

/-- The bytes of a frame, byte 0 first (R38). -/
def Frame.toList (f : Frame) : List Byte :=
  [f.b0, f.b1, f.b2, f.b3, f.b4, f.b5, f.b6, f.b7, f.b8, f.b9, f.b10, f.b11, f.b12, f.b13]

/-- A frame from exactly 14 bytes, none from any other length (R80). -/
def Frame.ofList? : List Byte → Option Frame
  | [b0, b1, b2, b3, b4, b5, b6, b7, b8, b9, b10, b11, b12, b13] =>
    some ⟨b0, b1, b2, b3, b4, b5, b6, b7, b8, b9, b10, b11, b12, b13⟩
  | _ => none

/-- `negative = frame[1][3]` (R42, R84). -/
def Frame.negative (f : Frame) : Bool := f.b1.getLsbD 3

/-- `decimalHundred = frame[3][3]` (R42, R85). -/
def Frame.decimalHundred (f : Frame) : Bool := f.b3.getLsbD 3

/-- `decimalTen = frame[5][3]` (R42, R85). -/
def Frame.decimalTen (f : Frame) : Bool := f.b5.getLsbD 3

/-- `decimalOne = frame[7][3]` (R42, R85). -/
def Frame.decimalOne (f : Frame) : Bool := f.b7.getLsbD 3

namespace Machine

/-! ### The table lookup -/

/-- `SEGTAB[k]` (R47). -/
def entry (tab : SegTab) (k : Fin 12) : SegCode := tab.codes[k]

/-- `SEGTAB_GK` (R48): an instance of the parameter, "supplied [from general knowledge, not in source]". It is an admissible
table, given so that concrete vectors can be written; by R48 no claim is built on it, so no meaning and no obligation uses it. -/
def segtabGK : SegTab where
  codes := #v[0x7D, 0x05, 0x5B, 0x1F, 0x27, 0x3E, 0x7E, 0x15, 0x7F, 0x3F, 0x00, 0x68]
  distinct := by decide

/-- The twelve indices of the table, in order. -/
def tableIndices : List (Fin 12) := [0, 1, 2, 3, 4, 5, 6, 7, 8, 9, 10, 11]

/-- The index `k` with `SEGTAB[k] = code`, if there is one (R83): the source's linear scan. -/
def lookup (tab : SegTab) (code : SegCode) : Option (Fin 12) :=
  tableIndices.find? fun k => entry tab k == code

/-- "Table index 0–9 → digit value; index 10 → 0.0 (blank tube); index 11 → positive infinity" (R47, R83). -/
def glyphAt (k : Fin 12) : Glyph :=
  if h : k.val < 10 then .digit ⟨k.val, h⟩ else if k.val = 10 then .blank else .overload

/-- `VALUE` of a glyph (R92). -/
def glyphValue : Glyph → F64
  | .digit d => F64.ofNat d.val
  | .blank => F64.zero false
  | .overload => F64.inf false

/-- What the lookup answers for the entry at index `k` (R80 step 1). -/
def tubeAt (k : Fin 12) : Tube where
  glyph := glyphAt k
  value := glyphValue (glyphAt k)

/-- The error of a digit group whose code is in no entry (R130), with its payload (R131). -/
def groupError (msb lsb : Byte) : DecodeError := .unrecognizedSegmentPattern (segCode msb lsb) msb lsb

/-- One round of the loop of R80 step 1: the code of the group, the lookup, and the value or the error. -/
def decodeGroup (tab : SegTab) (msb lsb : Byte) : GroupResult :=
  match lookup tab (segCode msb lsb) with
  | some k => .tube (tubeAt k)
  | none => .err (groupError msb lsb)

/-! ### Numeric assembly -/

/-- "`raw = thousandsDigit*1000 + hundredsDigit*100 + tensDigit*10 + onesDigit`", products first, sums left to right
(R93). -/
def rawReading (th hu te on : F64) : F64 :=
  ((th.fmul (F64.ofNat 1000)).fadd (hu.fmul (F64.ofNat 100))).fadd (te.fmul (F64.ofNat 10)) |>.fadd on

/-- "`raw = negative ? -raw : raw`" (R95). -/
def applySign (negative : Bool) (raw : F64) : F64 := if negative then raw.fneg else raw

/-- Decimal scaling, at most one division, priority `decimalHundred > decimalTen > decimalOne` (R96). -/
def decimalScale (hundred ten one : Bool) (raw : F64) : F64 :=
  if hundred then raw.fdiv (F64.ofNat 1000)
  else if ten then raw.fdiv (F64.ofNat 100)
  else if one then raw.fdiv (F64.ofNat 10)
  else raw

/-- Multiplier scaling, at most one operation, priority `n > u > (m or mV) > k > M` (R97). The small multipliers are
divisions. -/
def multiplierScale (flags : Flags) (number : F64) : F64 :=
  if flags.n then number.fdiv (F64.ofNat 1000000000)
  else if flags.u then number.fdiv (F64.ofNat 1000000)
  else if flags.m || flags.mV then number.fdiv (F64.ofNat 1000)
  else if flags.k then number.fmul (F64.ofNat 1000)
  else if flags.M then number.fmul (F64.ofNat 1000000)
  else number

/-! ### The ideal value of R99 -/

/-- The tuple `(s, D, p, e)` of R99. -/
structure Ideal where
  negative : Bool
  reading : Nat
  point : Nat
  scale : Int
deriving DecidableEq, Repr

/-- The digit a glyph counts as, none for an overload (R94, R109). -/
def glyphDigit? : Glyph → Option Nat
  | .digit d => some d.val
  | .blank => some 0
  | .overload => none

/-- The integer `D = 1000*d_th + 100*d_hu + 10*d_te + d_on` of R94, none if a glyph is an overload. -/
def displayInteger? (th hu te on : Glyph) : Option Nat :=
  match glyphDigit? th, glyphDigit? hu, glyphDigit? te, glyphDigit? on with
  | some a, some b, some c, some d => some (1000 * a + 100 * b + 10 * c + d)
  | _, _, _, _ => none

/-- The decimal exponent `p` of R99. -/
def pointExponent (hundred ten one : Bool) : Nat :=
  if hundred then 3 else if ten then 2 else if one then 1 else 0

/-- The multiplier exponent `e` of R99. -/
def scaleExponent (flags : Flags) : Int :=
  if flags.n then -9
  else if flags.u then -6
  else if flags.m || flags.mV then -3
  else if flags.k then 3
  else if flags.M then 6
  else 0

/-- The ideal value `s * D * 10^(e - p)` (R99). -/
def Ideal.value (i : Ideal) : ℚ :=
  (if i.negative then -1 else 1) * (i.reading : ℚ) * (10 : ℚ) ^ (i.scale - (i.point : Int))

end Machine
end Sys2Proof
end

