-- ==== Sys2Proof/Machine/Flags.lean ====
section
/-! DEFINITION. The mode flags of a Measurement (R86 to R91), its unit (R103), and the unit code and flag word of the
result bus (R107, R111). -/
namespace Sys2Proof.Machine

/-- The 22 flags of a frame, each the frame bit unmodified (R86 to R91, R110). `Hz` and `battery` are one bit (R90). -/
def frameFlags (f : Frame) : Flags where
  ac := f.b0.getLsbD 3
  dc := f.b0.getLsbD 2
  auto := f.b0.getLsbD 1
  rs232 := f.b0.getLsbD 0
  u := f.b9.getLsbD 3
  n := f.b9.getLsbD 2
  k := f.b9.getLsbD 1
  diode := f.b9.getLsbD 0
  m := f.b10.getLsbD 3
  percent := f.b10.getLsbD 2
  M := f.b10.getLsbD 1
  beep := f.b10.getLsbD 0
  F := f.b11.getLsbD 3
  ohm := f.b11.getLsbD 2
  rel := f.b11.getLsbD 1
  hold := f.b11.getLsbD 0
  A := f.b12.getLsbD 3
  V := f.b12.getLsbD 2
  Hz := f.b12.getLsbD 1
  battery := f.b12.getLsbD 1
  mV := f.b13.getLsbD 2
  celsius := f.b13.getLsbD 1

/-- Unit resolution, first match wins: `ohm`, `A`, `V or mV`, `Hz`, `celsius`, `F`, else absent (R103). -/
def resolveUnit (flags : Flags) : Option MeterUnit :=
  if flags.ohm then some .ohm
  else if flags.A then some .ampere
  else if flags.V || flags.mV then some .volt
  else if flags.Hz then some .hertz
  else if flags.celsius then some .celsius
  else if flags.F then some .farad
  else none

/-- The unit strings of R103: "Ω" is U+03A9 and "°C" is U+00B0 U+0043. -/
def unitText : MeterUnit → String
  | .ohm => "\u03A9"
  | .ampere => "A"
  | .volt => "V"
  | .hertz => "Hz"
  | .celsius => "\u00B0C"
  | .farad => "F"

/-- The 3-bit unit code of R107. Code 7 is never produced. -/
def unitCode : Option MeterUnit → BitVec 3
  | none => 0
  | some .ohm => 1
  | some .ampere => 2
  | some .volt => 3
  | some .hertz => 4
  | some .celsius => 5
  | some .farad => 6

/-- The flags in frame order, `ac` first (R110). -/
def flagList (g : Flags) : List Bool :=
  [g.ac, g.dc, g.auto, g.rs232, g.u, g.n, g.k, g.diode, g.m, g.percent, g.M, g.beep, g.F, g.ohm, g.rel, g.hold, g.A, g.V,
    g.Hz, g.battery, g.mV, g.celsius]

/-- A number from its bits, the least significant first. -/
def natOfBits : List Bool → Nat
  | [] => 0
  | b :: bs => b.toNat + 2 * natOfBits bs

/-- `flags[21:0]` of the result bus, `flags[0] = ac` (R111). -/
def flagWord (g : Flags) : BitVec 22 := BitVec.ofNat 22 (natOfBits (flagList g))

end Sys2Proof.Machine
end

