-- ==== Sys2Proof/WellFormed.lean ====
section
/-! DEFINITION. Which terms of `Instr` are the instruction of their row on a block with the table `tab`. A one-byte burst
that is a sync byte is the row SYNC and not PUSH; a digit group is ILLEGAL_SEGCODE only if its code is in no entry (R49). The
operand types carry the rest: a frame has 14 bytes, a code 7 bits. -/
namespace Sys2Proof

/-- The burst is one byte long and that byte is a sync byte. -/
def isSyncBurst : List Byte → Bool
  | [b] => isSync b
  | _ => false

/-- The instruction is in the form that decoding gives. The meanings are total: `exec` runs the other terms too. -/
def Instr.wellFormed (tab : SegTab) : Instr → Bool
  | .push newBytes => !isSyncBurst newBytes
  | .reset => true
  | .decode _ => true
  | .sync _ => true
  | .segtab0 _ => true
  | .segtab1 _ => true
  | .segtab2 _ => true
  | .segtab3 _ => true
  | .segtab4 _ => true
  | .segtab5 _ => true
  | .segtab6 _ => true
  | .segtab7 _ => true
  | .segtab8 _ => true
  | .segtab9 _ => true
  | .segtab10 _ => true
  | .segtab11 _ => true
  | .illegalSegcode msb lsb => (Machine.lookup tab (segCode msb lsb)).isNone

end Sys2Proof
end

