-- ==== Sys2Proof/Decode.lean ====
section
/-! DEFINITION. From an input of the block to the instruction it is (R50: the interface selects the operation; R36, R38, R41:
the byte patterns), total on any bytes, rejecting by name; then the encoder, and the constructor MKFRAME of R51. -/
namespace Sys2Proof

/-- Why an input is no instruction. All three are inputs the spec says cannot be written (R80, decision D19). -/
inductive Reject where
  /-- The reset input carries no bytes (R75: "Operands: none"). -/
  | resetWithBytes
  /-- "A byte sequence whose length is not 14 is not a frame and cannot be presented to DECODE" (R26). -/
  | notFourteenBytes
  /-- A digit group is one pair of bytes (R40). -/
  | notOnePair
deriving DecidableEq, Repr

/-- The row `SEGTAB[k]` as an instruction (R47). -/
def segtabInstr (k : Fin 12) (pad : GroupPad) : Instr :=
  match k with
  | 0 => .segtab0 pad
  | 1 => .segtab1 pad
  | 2 => .segtab2 pad
  | 3 => .segtab3 pad
  | 4 => .segtab4 pad
  | 5 => .segtab5 pad
  | 6 => .segtab6 pad
  | 7 => .segtab7 pad
  | 8 => .segtab8 pad
  | 9 => .segtab9 pad
  | 10 => .segtab10 pad
  | 11 => .segtab11 pad

/-- A burst is a PUSH of any length (R60); the one-byte burst `0001xxxx` is the row SYNC (R36). -/
def decodeBurst (newBytes : List Byte) : Instr :=
  match newBytes with
  | [b] => if isSync b then .sync (lowNibble b) else .push [b]
  | _ => .push newBytes

/-- A digit group selects the entry its code equals, or is illegal (R47, R49). -/
def decodePair (tab : SegTab) (msb lsb : Byte) : Instr :=
  match Machine.lookup tab (segCode msb lsb) with
  | some k => segtabInstr k (groupPad msb lsb)
  | none => .illegalSegcode msb lsb

/-- The instruction an input is (R50). -/
def decode (tab : SegTab) (input : Stimulus) : Except Reject Instr :=
  match input.port, input.bytes with
  | .reset, [] => .ok .reset
  | .reset, _ :: _ => .error .resetWithBytes
  | .burst, newBytes => .ok (decodeBurst newBytes)
  | .frame, bytes =>
    match Frame.ofList? bytes with
    | some f => .ok (.decode f)
    | none => .error .notFourteenBytes
  | .group, [msb, lsb] => .ok (decodePair tab msb lsb)
  | .group, _ => .error .notOnePair

/-! ### The encoder -/

/-- The byte pair of a digit group with the code `SEGTAB[k]` (R41, R47). -/
def encodeEntry (tab : SegTab) (k : Fin 12) (pad : GroupPad) : Stimulus :=
  ⟨.group, [groupMsb (Machine.entry tab k) pad, groupLsb (Machine.entry tab k) pad]⟩

/-- The input of an instruction. -/
def encode (tab : SegTab) : Instr → Stimulus
  | .push newBytes => ⟨.burst, newBytes⟩
  | .reset => ⟨.reset, []⟩
  | .decode f => ⟨.frame, f.toList⟩
  | .sync low => ⟨.burst, [syncByte low]⟩
  | .segtab0 pad => encodeEntry tab 0 pad
  | .segtab1 pad => encodeEntry tab 1 pad
  | .segtab2 pad => encodeEntry tab 2 pad
  | .segtab3 pad => encodeEntry tab 3 pad
  | .segtab4 pad => encodeEntry tab 4 pad
  | .segtab5 pad => encodeEntry tab 5 pad
  | .segtab6 pad => encodeEntry tab 6 pad
  | .segtab7 pad => encodeEntry tab 7 pad
  | .segtab8 pad => encodeEntry tab 8 pad
  | .segtab9 pad => encodeEntry tab 9 pad
  | .segtab10 pad => encodeEntry tab 10 pad
  | .segtab11 pad => encodeEntry tab 11 pad
  | .illegalSegcode msb lsb => ⟨.group, [msb, lsb]⟩

/-- The operands of `MKFRAME(g_th, g_hu, g_te, g_on; s, p, q, w; b0, b9, b10, b11, b12, b13)` (R51). -/
structure FrameSpec where
  th : Fin 12
  hu : Fin 12
  te : Fin 12
  on : Fin 12
  s : Bool
  p : Bool
  q : Bool
  w : Bool
  b0 : Nibble
  b9 : Nibble
  b10 : Nibble
  b11 : Nibble
  b12 : Nibble
  b13 : Nibble
deriving DecidableEq, Repr

/-- `MKFRAME`: the frame of a display, with the canonical high nibbles `i + 1` (R51). The Decoder ignores the high nibbles
(R45); only their not being `0001` in bytes 1 to 13 matters, to the Framer. -/
def mkFrame (tab : SegTab) (d : FrameSpec) : Frame where
  b0 := byteOf 0x1#4 d.b0
  b1 := groupMsb (Machine.entry tab d.th) ⟨0x2#4, d.s, 0⟩
  b2 := groupLsb (Machine.entry tab d.th) ⟨0, false, 0x3#4⟩
  b3 := groupMsb (Machine.entry tab d.hu) ⟨0x4#4, d.p, 0⟩
  b4 := groupLsb (Machine.entry tab d.hu) ⟨0, false, 0x5#4⟩
  b5 := groupMsb (Machine.entry tab d.te) ⟨0x6#4, d.q, 0⟩
  b6 := groupLsb (Machine.entry tab d.te) ⟨0, false, 0x7#4⟩
  b7 := groupMsb (Machine.entry tab d.on) ⟨0x8#4, d.w, 0⟩
  b8 := groupLsb (Machine.entry tab d.on) ⟨0, false, 0x9#4⟩
  b9 := byteOf 0xA#4 d.b9
  b10 := byteOf 0xB#4 d.b10
  b11 := byteOf 0xC#4 d.b11
  b12 := byteOf 0xD#4 d.b12
  b13 := byteOf 0xE#4 d.b13

/-! ### Bare words

The opcode table gives an instruction's bits and no interface. `wordInput` says on which interface a bare word is taken to
arrive, by its length alone. DESIGN CHOICE (notes/assumptions/6.md). -/

/-- The first `n` bytes of a word whose bit 0 is the least significant bit of the first byte. -/
def bytesOfWord : Nat → Nat → List Byte
  | 0, _ => []
  | n + 1, w => BitVec.ofNat 8 w :: bytesOfWord n (w / 256)

/-- The interface of a bare word of `n` bytes: none is RESET, two a digit group, fourteen a frame, any other number a
burst. -/
def wordPort (n : Nat) : Port :=
  if n = 0 then .reset else if n = 2 then .group else if n = 14 then .frame else .burst

/-- The input that is a bare word of `nbits` bits. -/
def wordInput (nbits w : Nat) : Stimulus := ⟨wordPort (nbits / 8), bytesOfWord (nbits / 8) w⟩

/-- The instruction the decoder reads from a bare word, on the build after reset. -/
def decodeTableWord (nbits w : Nat) : Option Instr :=
  match decode Config.segtab (wordInput nbits w) with
  | .ok i => some i
  | .error _ => none

end Sys2Proof
end

