-- ==== Sys2Proof/Machine/State.lean ====
section
/-! DEFINITION. The state, the reasons a step can stop, and the state after reset. The block has one element of
architectural state, `carry` (10_state.md R10), and the constants of its build (R19). The other fields are the model's own:
they hold what is under way at the block's interfaces (notes/assumptions/2.md, 4.md). There are no registers, no program counter, no
flags that persist and no memory (R13 to R17). -/
namespace Sys2Proof.Machine

/-- The model stops with a fault. -/
inductive Fault where
  /-- A PUSH or SYNC would leave more bytes in `carry` than a finite `CARRY_CAP` allows (R12). Raised by PUSH and SYNC only.
  Safe: the model stops where the spec gives a finite build no behaviour. -/
  | carryOverflow
deriving DecidableEq, Repr

/-- The model declines to go on. -/
inductive Refusal where
  /-- An instruction with no meaning yet. Raised by no arm of `exec` in this model. Safe. -/
  | notModelled (mnemonic : String)
  /-- An input that is no instruction and that the spec says cannot be written (R80, D19). Raised by `step`. Safe. -/
  | malformedInput (reason : Reject)
deriving DecidableEq, Repr

/-- The state of the block, of the channel inside it, and of its interfaces. -/
structure State where
  /-- The constants of the build: `SEGTAB` and `CARRY_CAP` (R7, R19). No operation writes them (R16). -/
  build : Build
  /-- The carry buffer, the oldest byte first (R10). -/
  carry : List Byte
  /-- The frames the last PUSH emitted and the Decoder has not yet taken, in the order of emission (R120, R121). -/
  frames : List Frame
  /-- The results of the transaction that the last PUSH began: what BLOCK_PUSH returns (R120). -/
  batch : List Result
  /-- Every result since the last RESET, the observable outcome of a run (R128). -/
  results : List Result
  /-- The answers of the table lookup to digit groups presented alone, since the last RESET (R83). -/
  tubes : List Tube
  /-- The operations the environment starts, one at a time and in this order (R124). -/
  inputs : List Stimulus
deriving DecidableEq, Repr

/-- The machine right after reset: `carry = []` and nothing else exists to be reset (R19, R151). -/
def State.reset : State where
  build := Config.build
  carry := []
  frames := []
  batch := []
  results := []
  tubes := []
  inputs := []

end Sys2Proof.Machine
end

