-- ==== Sys2Proof/Machine/Ops.lean ====
section
/-! DEFINITION. The named operations over the state. Every meaning reads and writes the state through them. -/
namespace Sys2Proof.Machine

/-- A new `carry` fits the build: always, unless `CARRY_CAP` is finite (R12). -/
def fits (build : Build) (carry : List Byte) : Bool :=
  match build.carryCap with
  | none => true
  | some n => decide (carry.length ≤ n)

/-- What a PUSH leaves: the new `carry`, its frames handed to the Decoder, and a transaction with no result yet (R60, R120). -/
def State.framed (s : State) (carry : List Byte) (frames : List Frame) : State :=
  { s with carry := carry, frames := s.frames ++ frames, batch := [] }

/-- What a RESET leaves: `carry <- []` (R75), and the outcome of the run begins anew (R128). Frames already emitted are not
cancelled (R75). -/
def State.cleared (s : State) : State :=
  { s with carry := [], batch := [], results := [], tubes := [] }

/-- The result of a DECODE leaves the block, after the results of earlier frames (R121, R122). -/
def State.deliver (s : State) (r : Result) : State :=
  { s with batch := s.batch ++ [r], results := s.results ++ [r] }

/-- Raising `UnrecognizedSegmentPattern` (R136): the DECODE ends with `Err` and the payload in place of the Measurement.
Nothing is saved, no mode changes, `carry` is untouched, and there is no return operation: the next operation starts from
nothing (R137). -/
def State.raise (s : State) (e : DecodeError) : State := s.deliver (.err e)

/-- The answer to a digit group presented alone is recorded. -/
def State.latch (s : State) (t : Tube) : State := { s with tubes := s.tubes ++ [t] }

/-- The answer of the lookup to a digit group presented alone: the value of its glyph, or the error (R80 step 1). -/
def State.settleGroup (s : State) (r : GroupResult) : State :=
  match r with
  | .tube t => s.latch t
  | .err e => s.raise e

/-! ### Fetching the next operation -/

/-- What the block does next and the state with that input taken. A frame the Framer has emitted comes first, so a
transaction is complete before the next operation begins (R32, R120); then the environment's next operation. -/
def fetch (s : State) : Option (Stimulus × State) :=
  match s.frames, s.inputs with
  | f :: fs, _ => some (⟨.frame, f.toList⟩, { s with frames := fs })
  | [], x :: xs => some (x, { s with inputs := xs })
  | [], [] => none

/-- The state in which `x` is the very next operation: no frame is waiting, and the environment starts `x` first. -/
def State.present (s : State) (x : Stimulus) : State :=
  { s with frames := [], inputs := x :: s.inputs }

end Sys2Proof.Machine
end

