-- ==== Sys2Proof/Machine/Decoder.lean ====
section
/-! DEFINITION. The Decoder (41_decoder.md): DECODE as the pure function of R80, and the meanings of DECODE, of the twelve
entries of the segment table (R47, R83, R92) and of an illegal segment code (R49, R130). -/
namespace Sys2Proof.Machine

/-- `number` of a frame with the four values of step 1: raw reading, sign, decimal scaling, multiplier (R80 step 4). -/
def assembleNumber (f : Frame) (th hu te on : F64) : F64 :=
  multiplierScale (frameFlags f)
    (decimalScale f.decimalHundred f.decimalTen f.decimalOne (applySign f.negative (rawReading th hu te on)))

/-- The Measurement of a frame whose four lookups answered (R80 steps 2 to 5). -/
def assemble (f : Frame) (th hu te on : F64) : Measurement where
  number := assembleNumber f th hu te on
  unit := resolveUnit (frameFlags f)
  flags := frameFlags f

/-- `DECODE(frame)` (R80). The four lookups come first, in the order thousands, hundreds, tens, ones, and the first that
fails ends the operation (R108). -/
def decodeFrame (tab : SegTab) (f : Frame) : Result :=
  match decodeGroup tab f.b1 f.b2 with
  | .err e => .err e
  | .tube th =>
    match decodeGroup tab f.b3 f.b4 with
    | .err e => .err e
    | .tube hu =>
      match decodeGroup tab f.b5 f.b6 with
      | .err e => .err e
      | .tube te =>
        match decodeGroup tab f.b7 f.b8 with
        | .err e => .err e
        | .tube on => .ok (assemble f th.value hu.value te.value on.value)

/-- The ideal value of a frame (R99), none if a code is illegal or a glyph is an overload. -/
def idealReading? (tab : SegTab) (f : Frame) : Option Ideal :=
  match decodeGroup tab f.b1 f.b2, decodeGroup tab f.b3 f.b4, decodeGroup tab f.b5 f.b6, decodeGroup tab f.b7 f.b8 with
  | .tube th, .tube hu, .tube te, .tube on =>
    match displayInteger? th.glyph hu.glyph te.glyph on.glyph with
    | some reading =>
      some {
        negative := f.negative
        reading := reading
        point := pointExponent f.decimalHundred f.decimalTen f.decimalOne
        scale := scaleExponent (frameFlags f) }
    | none => none
  | _, _, _, _ => none

/-- DECODE (R80): the frame's result leaves the block; nothing else changes (R112). -/
def execDecode (f : Frame) (s : State) : Host.Outcome State Fault Refusal :=
  .next (s.deliver (decodeFrame s.build.segtab f))

/-! ### Digit groups presented alone

The rows SEGTAB[k] and ILLEGAL_SEGCODE are the cases of R80 step 1. As inputs of their own they run that step on one digit
group. DESIGN CHOICE (notes/assumptions/4.md). -/

/-- Step 1 of R80 for one digit group. -/
def presentGroup (msb lsb : Byte) (s : State) : Host.Outcome State Fault Refusal :=
  .next (s.settleGroup (decodeGroup s.build.segtab msb lsb))

/-- A digit group with the code of entry `k`. -/
def presentEntry (k : Fin 12) (pad : GroupPad) (s : State) : Host.Outcome State Fault Refusal :=
  presentGroup (groupMsb (entry s.build.segtab k) pad) (groupLsb (entry s.build.segtab k) pad) s

/-- SEGTAB[0]: `Digit(0)`, value 0.0 (R47, R83, R92). -/
def execSegtab0 (pad : GroupPad) (s : State) : Host.Outcome State Fault Refusal := presentEntry 0 pad s

/-- SEGTAB[1]: `Digit(1)`, value 1.0 (R47, R83, R92). -/
def execSegtab1 (pad : GroupPad) (s : State) : Host.Outcome State Fault Refusal := presentEntry 1 pad s

/-- SEGTAB[2]: `Digit(2)`, value 2.0 (R47, R83, R92). -/
def execSegtab2 (pad : GroupPad) (s : State) : Host.Outcome State Fault Refusal := presentEntry 2 pad s

/-- SEGTAB[3]: `Digit(3)`, value 3.0 (R47, R83, R92). -/
def execSegtab3 (pad : GroupPad) (s : State) : Host.Outcome State Fault Refusal := presentEntry 3 pad s

/-- SEGTAB[4]: `Digit(4)`, value 4.0 (R47, R83, R92). -/
def execSegtab4 (pad : GroupPad) (s : State) : Host.Outcome State Fault Refusal := presentEntry 4 pad s

/-- SEGTAB[5]: `Digit(5)`, value 5.0 (R47, R83, R92). -/
def execSegtab5 (pad : GroupPad) (s : State) : Host.Outcome State Fault Refusal := presentEntry 5 pad s

/-- SEGTAB[6]: `Digit(6)`, value 6.0 (R47, R83, R92). -/
def execSegtab6 (pad : GroupPad) (s : State) : Host.Outcome State Fault Refusal := presentEntry 6 pad s

/-- SEGTAB[7]: `Digit(7)`, value 7.0 (R47, R83, R92). -/
def execSegtab7 (pad : GroupPad) (s : State) : Host.Outcome State Fault Refusal := presentEntry 7 pad s

/-- SEGTAB[8]: `Digit(8)`, value 8.0 (R47, R83, R92). -/
def execSegtab8 (pad : GroupPad) (s : State) : Host.Outcome State Fault Refusal := presentEntry 8 pad s

/-- SEGTAB[9]: `Digit(9)`, value 9.0 (R47, R83, R92). -/
def execSegtab9 (pad : GroupPad) (s : State) : Host.Outcome State Fault Refusal := presentEntry 9 pad s

/-- SEGTAB[10]: `Blank`, value 0.0 (R47, R83, R92). -/
def execSegtab10 (pad : GroupPad) (s : State) : Host.Outcome State Fault Refusal := presentEntry 10 pad s

/-- SEGTAB[11]: `Overload`, value +inf (R47, R83, R92). -/
def execSegtab11 (pad : GroupPad) (s : State) : Host.Outcome State Fault Refusal := presentEntry 11 pad s

/-- ILLEGAL_SEGCODE: the DECODE the group belongs to fails with `UnrecognizedSegmentPattern` and its payload, whatever the
rest of the frame holds (R49, R106, R130). -/
def execIllegalSegcode (msb lsb : Byte) (s : State) : Host.Outcome State Fault Refusal := presentGroup msb lsb s

end Sys2Proof.Machine
end

