-- ==== Sys2Proof/Machine/Framer.lean ====
section
/-! DEFINITION. The Framer (40_framer.md): PUSH as the pure function of R60, and the meanings of PUSH, RESET and SYNC. -/
namespace Sys2Proof.Machine

/-- The position at which these bytes begin is a boundary: the end of the stream or a sync byte (R62). -/
def atBoundary : List Byte → Bool
  | [] => true
  | c :: _ => isSync c

/-- A byte joins the group that follows it. -/
def joinFirst (b : Byte) : List (List Byte) → List (List Byte)
  | [] => [[b]]
  | g :: gs => (b :: g) :: gs

/-- `GROUPS(all)`: a new group starts at position 0 and at every sync byte; the empty sequence has no group (R62). -/
def groups : List Byte → List (List Byte)
  | [] => []
  | b :: rest => if atBoundary rest then [b] :: groups rest else joinFirst b (groups rest)

/-- The noise discard: the first group is dropped if its first byte is not a sync byte (R63). -/
def dropNoise : List (List Byte) → List (List Byte)
  | (b :: g) :: gs => if isSync b then (b :: g) :: gs else gs
  | gs => gs

/-- The consecutive 14-byte slices of a group (R64). -/
def chop : List Byte → List Frame
  | b0 :: b1 :: b2 :: b3 :: b4 :: b5 :: b6 :: b7 :: b8 :: b9 :: b10 :: b11 :: b12 :: b13 :: rest =>
    ⟨b0, b1, b2, b3, b4, b5, b6, b7, b8, b9, b10, b11, b12, b13⟩ :: chop rest
  | _ => []

/-- Steps 4 and 5: groups of whole frames are emitted, the first other group is kept as the new `carry` and ends the PUSH,
and the groups after it are dropped (R64, R65, R66). The frames and the new `carry`. -/
def emitGroups : List (List Byte) → List Frame × List Byte
  | [] => ([], [])
  | g :: gs =>
    if g.length % 14 = 0 then (chop g ++ (emitGroups gs).1, (emitGroups gs).2)
    else ([], g)

/-- `push : (carry, newBytes) -> (carry', frames)` (R60, R61), here with the frames first. -/
def push (carry newBytes : List Byte) : List Frame × List Byte :=
  emitGroups (dropNoise (groups (carry ++ newBytes)))

/-- One PUSH on the state. With a finite `CARRY_CAP` a `carry` too long for it is the fault `CarryOverflow` (R12). -/
def pushBurst (newBytes : List Byte) (s : State) : Host.Outcome State Fault Refusal :=
  if fits s.build (push s.carry newBytes).2 then
    .next (s.framed (push s.carry newBytes).2 (push s.carry newBytes).1)
  else .fault .carryOverflow

/-- PUSH (R60). -/
def execPush (newBytes : List Byte) (s : State) : Host.Outcome State Fault Refusal := pushBurst newBytes s

/-- RESET (R75). -/
def execReset (s : State) : Host.Outcome State Fault Refusal := .next s.cleared

/-- SYNC: a sync byte arrives at the Framer as a burst of its own (R36, R68 (c) to (e)). DESIGN CHOICE
(notes/assumptions/3.md). -/
def execSync (low : Nibble) (s : State) : Host.Outcome State Fault Refusal := pushBurst [syncByte low] s

end Sys2Proof.Machine
end

