-- ==== Sys2Proof/Machine/Dispatch.lean ====
section
/-! DEFINITION. The dispatch: one arm per row of spec/opcode_table.json. -/
namespace Sys2Proof.Machine

def exec (i : Instr) (s : State) : Host.Outcome State Fault Refusal :=
  match i with
  | .push newBytes => Sys2Proof.Machine.execPush newBytes s
  | .reset => Sys2Proof.Machine.execReset s
  | .decode f => Sys2Proof.Machine.execDecode f s
  | .sync low => Sys2Proof.Machine.execSync low s
  | .segtab0 pad => Sys2Proof.Machine.execSegtab0 pad s
  | .segtab1 pad => Sys2Proof.Machine.execSegtab1 pad s
  | .segtab2 pad => Sys2Proof.Machine.execSegtab2 pad s
  | .segtab3 pad => Sys2Proof.Machine.execSegtab3 pad s
  | .segtab4 pad => Sys2Proof.Machine.execSegtab4 pad s
  | .segtab5 pad => Sys2Proof.Machine.execSegtab5 pad s
  | .segtab6 pad => Sys2Proof.Machine.execSegtab6 pad s
  | .segtab7 pad => Sys2Proof.Machine.execSegtab7 pad s
  | .segtab8 pad => Sys2Proof.Machine.execSegtab8 pad s
  | .segtab9 pad => Sys2Proof.Machine.execSegtab9 pad s
  | .segtab10 pad => Sys2Proof.Machine.execSegtab10 pad s
  | .segtab11 pad => Sys2Proof.Machine.execSegtab11 pad s
  | .illegalSegcode msb lsb => Sys2Proof.Machine.execIllegalSegcode msb lsb s

end Sys2Proof.Machine
end

