-- ==== Sys2Proof/Machine/Step.lean ====
section
/-! DEFINITION. One step: one operation, run to completion (R32, R127). -/
namespace Sys2Proof.Machine

/-- The block takes its next input and runs the instruction it is. With no input it does nothing (R152). -/
def step (s : State) : Host.Outcome State Fault Refusal :=
  match fetch s with
  | none => .next s
  | some (x, t) =>
    match decode t.build.segtab x with
    | .ok i => exec i t
    | .error r => .refused (.malformedInput r)

/-- `s` with a bare word as the environment's very next operation (notes/assumptions/6.md). -/
def State.withFetchWord (s : State) (nbits w : Nat) : State := s.present (wordInput nbits w)

end Sys2Proof.Machine
end

