-- ==== Sys2Proof/Machine/Pipeline.lean ====
section
/-! DEFINITION. The composition of Framer and Decoder as one transaction (42_pipeline.md R120), a sequence of transactions
(R128), and the consumer's policy ABORT_BATCH (R123). The step relation runs a transaction as one PUSH and then one DECODE
a frame; these pure functions say what it must come to. -/
namespace Sys2Proof.Machine

/-- `BLOCK_PUSH(newBytes)`: the results, one per frame and in order, and the new `carry` (R120). -/
def blockPush (tab : SegTab) (carry newBytes : List Byte) : List Result × List Byte :=
  ((push carry newBytes).1.map (decodeFrame tab), (push carry newBytes).2)

/-- A sequence of PUSH operations: the frames emitted, in order, and the last `carry` (R73). -/
def pushAll (carry : List Byte) : List (List Byte) → List Frame × List Byte
  | [] => ([], carry)
  | burst :: bursts =>
    ((push carry burst).1 ++ (pushAll (push carry burst).2 bursts).1, (pushAll (push carry burst).2 bursts).2)

/-- What a consumer with the original's policy receives for a transaction (R123). -/
inductive BatchResult where
  | ok (measurements : List Measurement)
  | err (error : DecodeError)
deriving DecidableEq, Repr

/-- `ABORT_BATCH(results)`: the first `Err` if there is one, else all the Measurements (R123). -/
def abortBatch : List Result → BatchResult
  | [] => .ok []
  | .err e :: _ => .err e
  | .ok m :: rest =>
    match abortBatch rest with
    | .ok ms => .ok (m :: ms)
    | .err e => .err e

/-- What a consumer that aborts a batch sees of the transaction in the state (R123). -/
def State.abortBatch (s : State) : BatchResult := Machine.abortBatch s.batch

end Sys2Proof.Machine
end

