-- ==== Sys2Proof/Machine/Ports.lean ====
section
/-! DEFINITION. The informative port binding (42_pipeline.md R126, 41_decoder.md R111): how the cycles of the byte-serial
input become the block's inputs, how a transaction's results are laid out on the result bus, and the block behind its ports,
clock edge by clock edge, with both handshakes. No rule and no meaning depends on this file (R126; notes/assumptions/8.md). -/
namespace Sys2Proof.Machine

/-! ### The input ports -/

/-- The pins the block samples on a rising edge of `clk` (R126). -/
structure PortIn where
  rst : Bool
  inValid : Bool
  inData : Byte
  inLast : Bool
  inFlush : Bool
  outReady : Bool
deriving DecidableEq, Repr

/-- `in_ready`: 0 until every operation begun has run, so that `carry` has been written (R126). That it is 1 from then on, also
while frames wait for the Decoder, is a DESIGN CHOICE (notes/assumptions/8.md). -/
def State.inReady (s : State) : Bool := s.inputs.isEmpty

/-- One clock edge with the given `in_ready` and the bytes of the burst received so far: the bytes kept and the operation it
starts. `rst` performs RESET and discards the burst in progress. A byte is taken only with `in_ready`; `in_last` ends its burst.
`in_flush` without `in_valid` is an empty burst (R126). That a flush too is taken only with `in_ready`, that it keeps a burst in
progress, and that `rst` does not wait for `in_ready` are DESIGN CHOICES (notes/assumptions/8.md). -/
def sample (ready : Bool) (burst : List Byte) (p : PortIn) : List Byte × Option Stimulus :=
  if p.rst then ([], some ⟨.reset, []⟩)
  else if !ready then (burst, none)
  else if p.inValid then
    if p.inLast then ([], some ⟨.burst, burst ++ [p.inData]⟩) else (burst ++ [p.inData], none)
  else if p.inFlush then (burst, some ⟨.burst, []⟩)
  else (burst, none)

/-- A clock edge as the sender sees it: the pins and `in_ready`. -/
structure Edge where
  ready : Bool
  pins : PortIn
deriving DecidableEq, Repr

/-- A sequence of clock edges: the bytes kept and the operations started, in order. -/
def sampleAll (burst : List Byte) : List Edge → List Byte × List Stimulus
  | [] => (burst, [])
  | e :: es =>
    ((sampleAll (sample e.ready burst e.pins).1 es).1,
      (sample e.ready burst e.pins).2.toList ++ (sampleAll (sample e.ready burst e.pins).1 es).2)

/-- The pins that offer one byte of a burst, with a consumer that does not take a result. -/
def bytePins (b : Byte) (last : Bool) : PortIn := ⟨false, true, b, last, false, false⟩

/-- The edges that send a burst: each byte is held while `in_ready` is 0, for the given number of edges, and the last byte is
marked `in_last` (R126). -/
def sendBurst : List (Nat × Byte) → List Edge
  | [] => []
  | (wait, b) :: bs =>
    List.replicate wait ⟨false, bytePins b bs.isEmpty⟩ ++ ⟨true, bytePins b bs.isEmpty⟩ :: sendBurst bs

/-! ### The output ports -/

/-- The fields of the result bus (R111). A field that carries no meaning for its result is `none`. -/
structure ResultBus where
  ok : Bool
  number : Option (BitVec 64)
  unit : Option (BitVec 3)
  flags : Option (BitVec 22)
  errCode : Option SegCode
  errMsb : Option Byte
  errLsb : Option Byte
deriving DecidableEq, Repr

/-- A result on the result bus (R111). -/
def resultBus : Result → ResultBus
  | .ok m => ⟨true, some m.number.bits, some (unitCode m.unit), some (flagWord m.flags), none, none, none⟩
  | .err (.unrecognizedSegmentPattern code msb lsb) => ⟨false, none, none, none, some code, some msb, some lsb⟩

/-- One beat of the output ports: `out_valid` with its result, and `out_last` (R126). -/
structure PortOut where
  result : Option ResultBus
  last : Bool
deriving DecidableEq, Repr

/-- The beats of a transaction: one a result, the last one marked; a transaction with no results is one pulse of
`out_last` (R126). -/
def outBeats : List Result → List PortOut
  | [] => [⟨none, true⟩]
  | [r] => [⟨some (resultBus r), true⟩]
  | r :: rs => ⟨some (resultBus r), false⟩ :: outBeats rs

/-- A consumer's edge: a beat with a result stays until `out_ready`, and the pulse of a transaction with no results lasts one
cycle (R126). -/
def takeBeat (outReady : Bool) : List PortOut → List PortOut
  | [] => []
  | b :: bs => if outReady || b.result.isNone then bs else b :: bs

/-! ### The block behind its ports -/

/-- The block, the bytes of the burst in progress, and the beats not yet taken, the oldest first. -/
structure Wires where
  block : State
  burst : List Byte
  beats : List PortOut
deriving DecidableEq, Repr

/-- `in_ready` (R126). -/
def Wires.inReady (w : Wires) : Bool := w.block.inReady

/-- `out_valid`: a result is presented (R126). -/
def Wires.outValid (w : Wires) : Bool :=
  match w.beats with
  | [] => false
  | b :: _ => b.result.isSome

/-- `out_last` (R126). -/
def Wires.outLast (w : Wires) : Bool :=
  match w.beats with
  | [] => false
  | b :: _ => b.last

/-- The result presented on the bus, if any (R111, R126). -/
def Wires.outResult (w : Wires) : Option ResultBus :=
  match w.beats with
  | [] => none
  | b :: _ => b.result

/-- One rising edge of `clk`: the input pins are sampled with the `in_ready` of the cycle, the operation they start waits for the
block behind those begun before it (a RESET too: DESIGN CHOICE, notes/assumptions/8.md), and the consumer takes a beat or not. -/
def Wires.edge (w : Wires) (p : PortIn) : Wires where
  block := { w.block with inputs := w.block.inputs ++ (sample w.inReady w.burst p).2.toList }
  burst := (sample w.inReady w.burst p).1
  beats := takeBeat p.outReady w.beats

/-- The block's next step belongs to a transaction with results: it decodes a waiting frame, or it pushes a burst (R120). A RESET
is none, so it gives no pulse of `out_last`: R126 pulses it "for a transaction with no results", R120 calls the BLOCK_PUSH a
transaction, and R128 speaks of RESET transactions too. DESIGN CHOICE (notes/assumptions/8.md). -/
def State.inTransaction (s : State) : Bool :=
  match s.frames, s.inputs with
  | _ :: _, _ => true
  | [], x :: _ => x.port == .burst
  | [], [] => false

/-- The beats a step adds: those of the whole transaction, when the step from `s` to `t` ends it. -/
def endBeats (s t : State) : List PortOut :=
  if s.inTransaction && t.frames.isEmpty then outBeats t.batch else []

/-- The block does one step behind its ports. -/
def Wires.advance (w : Wires) : Host.Outcome Wires Fault Refusal :=
  match step w.block with
  | .next t => .next { w with block := t, beats := w.beats ++ endBeats w.block t }
  | .fault r => .fault r
  | .refused r => .refused r

/-- One clock cycle: the pins, and whether the block does a step in it. R126 lets any number of cycles pass before a result. -/
structure Tick where
  pins : PortIn
  advances : Bool
deriving DecidableEq, Repr

/-- One clock cycle: the edge, then the block's step if it does one. -/
def Wires.clock (w : Wires) (c : Tick) : Host.Outcome Wires Fault Refusal :=
  if c.advances then (w.edge c.pins).advance else .next (w.edge c.pins)

/-- A sequence of clock cycles, stopping at the first fault or refusal. -/
def Wires.run (w : Wires) : List Tick → Host.Outcome Wires Fault Refusal
  | [] => .next w
  | c :: cs =>
    match w.clock c with
    | .next v => v.run cs
    | .fault r => .fault r
    | .refused r => .refused r

/-- Pins with nothing offered and nothing taken. -/
def idlePins : PortIn := ⟨false, false, 0, false, false, false⟩

/-- Idle cycles: for each number, that many in which the block does nothing and then one in which it does a step. -/
def idleTicks (waits : List Nat) : List Tick :=
  waits.flatMap fun k => List.replicate k ⟨idlePins, false⟩ ++ [⟨idlePins, true⟩]

/-- The cycles that send a burst to a block that is ready, without a step of the block. -/
def sendTicks (bytes : List Byte) : List Tick :=
  (sendBurst (bytes.map fun b => (0, b))).map fun e => ⟨e.pins, false⟩

end Sys2Proof.Machine
end

