-- ==== Sys2Proof/Safety.lean ====
section
/-! DEFINITION. The terms in which claims are stated: the invariant of `carry` (R11), of the emitted frames (R69) and of the
state; clean streams (R72); the ignored bits of a frame (R45); and the groups of a stream as R62 describes them. -/
namespace Sys2Proof.Machine

/-- No byte of the sequence is a sync byte. -/
def noSync (bytes : List Byte) : Bool := bytes.all fun b => !isSync b

/-- The bytes are a sync byte followed by no other: a group that survives the noise discard (R62, R63). -/
def isAlignedGroup : List Byte → Bool
  | [] => false
  | b :: rest => isSync b && noSync rest

/-- The invariant of `carry` (R11): empty, or one aligned group whose length is not a multiple of 14. -/
def carryOk (carry : List Byte) : Bool :=
  carry.isEmpty || (isAlignedGroup carry && carry.length % 14 != 0)

/-- Bytes 1 to 13 of a frame hold no sync byte, as in every frame the Framer emits (R69). -/
def frameTailOk (f : Frame) : Bool := noSync f.toList.tail

/-- The invariant of the state. `carry` is as R11 says and fits the build (R12), every emitted frame is as R69 says, and the
results of the transaction are the last results of the run (R120, R128). -/
structure State.Inv (s : State) : Prop where
  carryOk : carryOk s.carry = true
  fits : fits s.build s.carry = true
  frames : ∀ f ∈ s.frames, frameTailOk f = true
  batch : s.batch <:+ s.results

/-- A frame of a clean stream: its byte 0 is a sync byte and no other byte is (R72). -/
def isCleanFrame (f : Frame) : Bool := isSync f.b0 && frameTailOk f

/-- The unfinished end of a clean stream: nothing, or a proper prefix of a frame (R72). -/
def isCleanTail (bytes : List Byte) : Bool :=
  bytes.isEmpty || (isAlignedGroup bytes && decide (bytes.length ≤ 13))

/-- The clean stream `noise ++ F_1 ++ ... ++ F_n ++ tail` (R72). -/
def cleanStream (noise : List Byte) (fs : List Frame) (tail : List Byte) : List Byte :=
  noise ++ fs.flatMap Frame.toList ++ tail

/-- The parts of a clean stream (R72). -/
def isClean (noise : List Byte) (fs : List Frame) (tail : List Byte) : Bool :=
  noSync noise && fs.all isCleanFrame && isCleanTail tail

/-- `gs` is the partition of `all` into groups as R62 describes it: the groups give `all` back, none is empty, in every group
only the first byte can be a sync byte, and every group but the first begins with one. -/
structure IsGroups (all : List Byte) (gs : List (List Byte)) : Prop where
  flatten : gs.flatten = all
  nonempty : ∀ g ∈ gs, g ≠ []
  inner : ∀ g ∈ gs, noSync g.tail = true
  heads : ∀ g ∈ gs.tail, isAlignedGroup g = true

/-- The bytes of a frame with the ignored bits cleared (R45): bits 7:4 of every byte, bit 0 of byte 12, bits 3 and 0 of byte
13. Two frames with equal used bits differ only in ignored bits. -/
def usedBits (f : Frame) : Frame where
  b0 := f.b0 &&& 0x0F
  b1 := f.b1 &&& 0x0F
  b2 := f.b2 &&& 0x0F
  b3 := f.b3 &&& 0x0F
  b4 := f.b4 &&& 0x0F
  b5 := f.b5 &&& 0x0F
  b6 := f.b6 &&& 0x0F
  b7 := f.b7 &&& 0x0F
  b8 := f.b8 &&& 0x0F
  b9 := f.b9 &&& 0x0F
  b10 := f.b10 &&& 0x0F
  b11 := f.b11 &&& 0x0F
  b12 := f.b12 &&& 0x0E
  b13 := f.b13 &&& 0x06

/-- A result with an error's source bytes left out: what R45 says ignored bits cannot change. -/
def errorCode? : Result → Option SegCode
  | .ok _ => none
  | .err (.unrecognizedSegmentPattern code _ _) => some code

end Sys2Proof.Machine
end

