-- ==== Sys2Proof/Certificates/Slice0/Obligations.lean ====
section
/-! DEFINITION. The statements about the block, for the provers. A state is any state: its table is any injective table, its
`CARRY_CAP` any capacity, and its fields hold anything unless a hypothesis says otherwise. A next state written
`{ s with … }` is also the frame: every field it does not name is unchanged. The fields `frames`, `batch`, `results`, `tubes` and
`inputs` are the model's own records of what passes at the interfaces, and that a result, a frame or an answer is recorded
there is the model's choice (notes/assumptions/2.md, 4.md, 5.md). -/

open Sys2Proof Sys2Proof.Machine

/-! ### Encodings -/

/-- Decoding inverts encoding for every well-formed instruction of every row, with every operand, on every table: no bit of
an encoding is dropped (30_encoding.md). -/
def Obligations.DecodeInvertsEncode : Prop :=
  ∀ (tab : SegTab) (i : Instr), i.wellFormed tab = true → decode tab (encode tab i) = .ok i

/-- Encoding inverts decoding, and what is decoded is well formed: each input has one meaning. -/
def Obligations.EncodeInvertsDecode : Prop :=
  ∀ (tab : SegTab) (x : Stimulus) (i : Instr), decode tab x = .ok i → encode tab i = x ∧ i.wellFormed tab = true

/-- Words written out from the encodings: the sync byte `0001xxxx` (R36), a burst, the reset input, and a frame with one used
bit set in each byte of a kind (R38). The interface of a bare word and the row SYNC are the model's choices
(notes/assumptions/6.md, 3.md). -/
def Obligations.WordsFromTheEncodingsDecode : Prop :=
  decodeTableWord 8 0b00011010 = some (.sync 0b1010) ∧
  decodeTableWord 8 0b00100001 = some (.push [0b00100001]) ∧
  decodeTableWord 24 0x302010 = some (.push [0x10, 0x20, 0x30]) ∧
  decodeTableWord 0 0 = some .reset ∧
  decodeTableWord 112 0xE6D0C0B0A097827F655B45352810 =
    some (.decode ⟨0x10, 0x28, 0x35, 0x45, 0x5B, 0x65, 0x7F, 0x82, 0x97, 0xA0, 0xB0, 0xC0, 0xD0, 0xE6⟩)

/-- The frame interface takes the sequences of 14 bytes, every one of them, and nothing else (R26, R80, decision D19). -/
def Obligations.FrameInterfaceTakesFourteenBytes : Prop :=
  ∀ (tab : SegTab) (bytes : List Byte),
    (bytes.length = 14 → ∃ f : Frame, f.toList = bytes ∧ decode tab ⟨.frame, bytes⟩ = .ok (.decode f)) ∧
    (bytes.length ≠ 14 → decode tab ⟨.frame, bytes⟩ = .error .notFourteenBytes)

/-- R36: a byte is a sync byte iff its high nibble is `0001`, equivalently `b & 0xF0 = 0x10`, equivalently
`0x10 ≤ b ≤ 0x1F`. -/
def Obligations.SyncBytesAreSixteen : Prop :=
  ∀ b : Byte, (isSync b = true ↔ highNibble b = 0b0001#4) ∧ (isSync b = true ↔ b &&& 0xF0#8 = 0x10#8) ∧
    (isSync b = true ↔ 0x10 ≤ b.toNat ∧ b.toNat ≤ 0x1F)

/-- R41, R82: `code = ((msb & 0x7) << 4) | (lsb & 0xF)`, that is `code[6:4] = msb[2:0]` and `code[3:0] = lsb[3:0]`. -/
def Obligations.SegmentCodeJoinsTheLowBits : Prop :=
  ∀ msb lsb : Byte,
    (segCode msb lsb).toNat = ((msb.toNat &&& 0x7) <<< 4) ||| (lsb.toNat &&& 0xF) ∧
    (segCode msb lsb).extractLsb' 4 3 = msb.extractLsb' 0 3 ∧
    (segCode msb lsb).extractLsb' 0 4 = lsb.extractLsb' 0 4

/-! ### The Framer -/

/-- R62: GROUPS is the partition the rule describes, and the only one. (For the empty stream, which the source leaves open,
decision D6 takes no groups: nothing is stated of it here.) -/
def Obligations.GroupsAreThePartition : Prop :=
  ∀ all : List Byte, all ≠ [] → IsGroups all (groups all) ∧ ∀ gs, IsGroups all gs → gs = groups all

/-- PUSH when every group after the noise is whole (R61, R64, R66). `noise` is nothing or the one group that does not begin
with a sync byte, and `whole` the groups after it. Each group gives its 14-byte slices, in order; the first slice begins with
a sync byte, and the others contain none. `carry` is empty. That the record `batch` is emptied is the model's choice
(notes/assumptions/2.md). -/
def Obligations.PushEmitsWholeGroups : Prop :=
  ∀ (s : State) (newBytes : List Byte) (noise whole : List (List Byte)),
    (noise = [] ∨ ∃ n, noise = [n] ∧ isAlignedGroup n = false) →
    (∀ g ∈ whole, isAlignedGroup g = true ∧ g.length % 14 = 0) →
    IsGroups (s.carry ++ newBytes) (noise ++ whole) →
    ∃ slices : List (List Frame),
      exec (.push newBytes) s = .next { s with carry := [], frames := s.frames ++ slices.flatten, batch := [] } ∧
      slices.map (fun fs => fs.flatMap Frame.toList) = whole ∧
      ∀ fs ∈ slices, ∃ f rest, fs = f :: rest ∧ isCleanFrame f = true ∧ ∀ g ∈ rest, noSync g.toList = true

/-- PUSH when a group after the noise is not whole (R65): the groups before the first such group are emitted, that group
becomes `carry`, and the groups after it are dropped. That the later groups are dropped is the spec's decision D5. The new
`carry` must fit the build (R12). That the record `batch` is emptied is the model's choice (notes/assumptions/2.md). -/
def Obligations.PushKeepsTheFirstOtherGroup : Prop :=
  ∀ (s : State) (newBytes kept : List Byte) (noise whole dropped : List (List Byte)),
    (noise = [] ∨ ∃ n, noise = [n] ∧ isAlignedGroup n = false) →
    (∀ g ∈ whole, isAlignedGroup g = true ∧ g.length % 14 = 0) →
    isAlignedGroup kept = true → kept.length % 14 ≠ 0 → (∀ n, s.build.carryCap = some n → kept.length ≤ n) →
    IsGroups (s.carry ++ newBytes) (noise ++ whole ++ kept :: dropped) →
    ∃ fs : List Frame,
      exec (.push newBytes) s = .next { s with carry := kept, frames := s.frames ++ fs, batch := [] } ∧
      fs.flatMap Frame.toList = whole.flatten

/-- PUSH and SYNC complete with an unbounded `carry`, or one as long as the build allows, whatever the bytes (R67), and write
`carry`, the frames and the transaction's results only. With a finite `CARRY_CAP` a longer `carry` is the fault `CarryOverflow`
(R12, decision D4). That SYNC is a one-byte burst and that the record `batch` is emptied are the model's choices
(notes/assumptions/3.md, 2.md). -/
def Obligations.PushCompletesOrOverflows : Prop :=
  ∀ (s : State) (i : Instr) (newBytes : List Byte),
    (i = .push newBytes ∨ ∃ low, i = .sync low ∧ newBytes = [syncByte low]) →
    ((∀ n, s.build.carryCap = some n → (push s.carry newBytes).2.length ≤ n) →
      ∃ carry fs, exec i s = .next { s with carry := carry, frames := s.frames ++ fs, batch := [] }) ∧
    (∀ n, s.build.carryCap = some n → n < (push s.carry newBytes).2.length → exec i s = .fault .carryOverflow)

/-- A sync byte that arrives as a burst of its own: it is kept when the Framer holds nothing, and dropped, with nothing else
changed, when it holds a group (R68 (e)). That the row SYNC is this one-byte burst and that the record `batch` is emptied are
the model's choices (notes/assumptions/3.md, 2.md). -/
def Obligations.SyncByteIsKeptOrDropped : Prop :=
  ∀ (s : State) (low : Nibble),
    (s.carry = [] → (∀ n, s.build.carryCap = some n → 1 ≤ n) →
      exec (.sync low) s = .next { s with carry := [syncByte low], batch := [] }) ∧
    (s.carry ≠ [] → carryOk s.carry = true → fits s.build s.carry = true →
      exec (.sync low) s = .next { s with batch := [] })

/-- R20, R70: a PUSH never reorders or duplicates bytes. The bytes of the emitted frames, then those of the new `carry`, are a
subsequence of the old `carry` and the burst. -/
def Obligations.PushNeverReordersBytes : Prop :=
  ∀ (s t : State) (newBytes : List Byte), exec (.push newBytes) s = .next t →
    ∃ fs, t.frames = s.frames ++ fs ∧ List.Sublist (fs.flatMap Frame.toList ++ t.carry) (s.carry ++ newBytes)

/-- R67: the new `carry` is empty, or the old one extended by a prefix of the burst, or made of consecutive bytes of the burst
only. -/
def Obligations.CarryIsExtendedOrNew : Prop :=
  ∀ (s t : State) (newBytes : List Byte), carryOk s.carry = true → exec (.push newBytes) s = .next t →
    t.carry = [] ∨ (∃ p, p <+: newBytes ∧ t.carry = s.carry ++ p) ∨ t.carry <:+: newBytes

/-- R68 (a), (b): an empty PUSH changes nothing and emits nothing. That the record `batch` is emptied is the model's choice
(notes/assumptions/2.md). -/
def Obligations.EmptyBurstChangesNothing : Prop :=
  ∀ s : State, carryOk s.carry = true → fits s.build s.carry = true →
    exec (.push []) s = .next { s with batch := [] }

/-- R68 (c), (d): a burst with no sync byte is noise when the Framer holds nothing, and otherwise extends the held group, which
is emitted if it then is whole. That the record `batch` is emptied is the model's choice (notes/assumptions/2.md). -/
def Obligations.BurstWithoutSyncByte : Prop :=
  ∀ (s : State) (newBytes : List Byte), carryOk s.carry = true → noSync newBytes = true →
    (s.carry = [] → exec (.push newBytes) s = .next { s with batch := [] }) ∧
    (s.carry ≠ [] → (s.carry ++ newBytes).length % 14 = 0 →
      ∃ fs : List Frame, fs.flatMap Frame.toList = s.carry ++ newBytes ∧
        exec (.push newBytes) s = .next { s with carry := [], frames := s.frames ++ fs, batch := [] }) ∧
    (s.carry ≠ [] → (s.carry ++ newBytes).length % 14 ≠ 0 → fits s.build (s.carry ++ newBytes) = true →
      exec (.push newBytes) s = .next { s with carry := s.carry ++ newBytes, batch := [] })

/-- R74 (c), R162, the wedge: a Framer that holds a group discards any number of bursts that each begin with a sync byte. -/
def Obligations.WedgedFramerDiscardsBursts : Prop :=
  ∀ (carry : List Byte) (bursts : List (List Byte)), carry ≠ [] → carryOk carry = true →
    (∀ b ∈ bursts, ∃ c rest, b = c :: rest ∧ isSync c = true) → pushAll carry bursts = ([], carry)

/-- R74 (a), R160: a 28-byte group in one burst gives two frames; the same bytes in two bursts of 14 give one. -/
def Obligations.BurstBoundariesAreObservable : Prop :=
  ∀ a b : List Byte, isAlignedGroup (a ++ b) = true → a.length = 14 → b.length = 14 →
    ∃ f g : Frame, f.toList = a ∧ g.toList = b ∧ pushAll [] [a ++ b] = ([f, g], []) ∧ pushAll [] [a, b] = ([f], [])

/-- R73: a clean stream, delivered after reset in any bursts whatever, gives exactly its frames and leaves its unfinished end
in `carry`, which never holds more than 13 bytes. -/
def Obligations.CleanStreamGivesItsFrames : Prop :=
  ∀ (noise tail : List Byte) (fs : List Frame) (bursts : List (List Byte)), isClean noise fs tail = true →
    bursts.flatten = cleanStream noise fs tail →
    pushAll [] bursts = (fs, tail) ∧ ∀ before after, bursts = before ++ after → (pushAll [] before).2.length ≤ 13

/-- R73 and R120 on the machine: with the bursts of a clean stream as the environment's next operations, the block takes one
step for each burst and one for each frame, and then has delivered the result of every frame, in order. A `CARRY_CAP` of 13
bytes suffices (R12). The steps and the queue of operations are the model's choice (notes/assumptions/2.md). -/
def Obligations.CleanStreamRunDeliversItsResults : Prop :=
  ∀ (s : State) (noise tail : List Byte) (fs : List Frame) (bursts : List (List Byte)) (later : List Stimulus),
    isClean noise fs tail = true → bursts.flatten = cleanStream noise fs tail → s.carry = [] → s.frames = [] →
    s.inputs = bursts.map (fun b => ⟨.burst, b⟩) ++ later → (∀ n, s.build.carryCap = some n → 13 ≤ n) →
    ∃ batch, Host.Core.run Sys2Proof.core (bursts.length + fs.length) s =
      .next { s with
        carry := tail
        batch := if bursts = [] then s.batch else batch
        results := s.results ++ fs.map (decodeFrame s.build.segtab)
        inputs := later }

/-- R75: RESET empties `carry` and emits nothing. That the results, the transaction's results and the answered lookups are
those since the last RESET is the model's reading of R128 (notes/assumptions/5.md). -/
def Obligations.ResetEmptiesTheCarry : Prop :=
  ∀ s : State, exec .reset s = .next { s with carry := [], batch := [], results := [], tubes := [] }

/-! ### The Decoder -/

/-- R93, R95, R96, R97: `number` of a frame whose four codes are in the table. Raw reading, sign, decimal scaling and
multiplier, each operation once and in this order. The multiplier flags stay as the frame has them, also those that lost.
DECODE delivers the result and changes nothing else. -/
def Obligations.DecodeAssemblesTheNumber : Prop :=
  ∀ (s : State) (f : Frame) (th hu te on : Fin 12),
    entry s.build.segtab th = segCode f.b1 f.b2 → entry s.build.segtab hu = segCode f.b3 f.b4 →
    entry s.build.segtab te = segCode f.b5 f.b6 → entry s.build.segtab on = segCode f.b7 f.b8 →
    ∃ m : Measurement,
      exec (.decode f) s = .next { s with batch := s.batch ++ [.ok m], results := s.results ++ [.ok m] } ∧
      (m.flags.n = f.b9.getLsbD 2 ∧ m.flags.u = f.b9.getLsbD 3 ∧ m.flags.m = f.b10.getLsbD 3 ∧ m.flags.mV = f.b13.getLsbD 2 ∧
        m.flags.k = f.b9.getLsbD 1 ∧ m.flags.M = f.b10.getLsbD 1) ∧
      let raw := (((glyphValue (glyphAt th)).fmul (F64.ofNat 1000)).fadd ((glyphValue (glyphAt hu)).fmul (F64.ofNat 100))).fadd
        ((glyphValue (glyphAt te)).fmul (F64.ofNat 10)) |>.fadd (glyphValue (glyphAt on))
      let signed := if f.b1.getLsbD 3 then raw.fneg else raw
      let scaled :=
        if f.b3.getLsbD 3 then signed.fdiv (F64.ofNat 1000)
        else if f.b5.getLsbD 3 then signed.fdiv (F64.ofNat 100)
        else if f.b7.getLsbD 3 then signed.fdiv (F64.ofNat 10)
        else signed
      m.number =
        if f.b9.getLsbD 2 then scaled.fdiv (F64.ofNat 1000000000)
        else if f.b9.getLsbD 3 then scaled.fdiv (F64.ofNat 1000000)
        else if f.b10.getLsbD 3 || f.b13.getLsbD 2 then scaled.fdiv (F64.ofNat 1000)
        else if f.b9.getLsbD 1 then scaled.fmul (F64.ofNat 1000)
        else if f.b10.getLsbD 1 then scaled.fmul (F64.ofNat 1000000)
        else scaled

/-- R86 to R91: the 22 flags of a Measurement are the frame bits unmodified; `Hz` and `battery` are one bit. The flags that are
only copied (those of byte 0, `diode`, `percent`, `beep`, `rel`, `hold`) and the unread bits of bytes 9 to 13 change neither
the number nor the unit: a frame that differs from `f` in no other bit gives the same of both. -/
def Obligations.DecodeCopiesTheFlagBits : Prop :=
  ∀ (s : State) (f : Frame) (th hu te on : Fin 12),
    entry s.build.segtab th = segCode f.b1 f.b2 → entry s.build.segtab hu = segCode f.b3 f.b4 →
    entry s.build.segtab te = segCode f.b5 f.b6 → entry s.build.segtab on = segCode f.b7 f.b8 →
    ∃ m : Measurement,
      exec (.decode f) s = .next { s with batch := s.batch ++ [.ok m], results := s.results ++ [.ok m] } ∧
      (m.flags.ac = f.b0.getLsbD 3 ∧ m.flags.dc = f.b0.getLsbD 2 ∧ m.flags.auto = f.b0.getLsbD 1 ∧
        m.flags.rs232 = f.b0.getLsbD 0) ∧
      (m.flags.u = f.b9.getLsbD 3 ∧ m.flags.n = f.b9.getLsbD 2 ∧ m.flags.k = f.b9.getLsbD 1 ∧
        m.flags.diode = f.b9.getLsbD 0) ∧
      (m.flags.m = f.b10.getLsbD 3 ∧ m.flags.percent = f.b10.getLsbD 2 ∧ m.flags.M = f.b10.getLsbD 1 ∧
        m.flags.beep = f.b10.getLsbD 0) ∧
      (m.flags.F = f.b11.getLsbD 3 ∧ m.flags.ohm = f.b11.getLsbD 2 ∧ m.flags.rel = f.b11.getLsbD 1 ∧
        m.flags.hold = f.b11.getLsbD 0) ∧
      (m.flags.A = f.b12.getLsbD 3 ∧ m.flags.V = f.b12.getLsbD 2 ∧ m.flags.Hz = f.b12.getLsbD 1 ∧
        m.flags.battery = f.b12.getLsbD 1) ∧
      (m.flags.mV = f.b13.getLsbD 2 ∧ m.flags.celsius = f.b13.getLsbD 1) ∧
      ∀ x0 x9 x10 x11 x12 x13 : Byte, x9 &&& 0x0E = f.b9 &&& 0x0E → x10 &&& 0x0A = f.b10 &&& 0x0A →
        x11 &&& 0x0C = f.b11 &&& 0x0C → x12 &&& 0x0E = f.b12 &&& 0x0E → x13 &&& 0x06 = f.b13 &&& 0x06 →
        ∃ m' : Measurement, m'.number = m.number ∧ m'.unit = m.unit ∧
          exec (.decode { f with b0 := x0, b9 := x9, b10 := x10, b11 := x11, b12 := x12, b13 := x13 }) s =
            .next { s with batch := s.batch ++ [.ok m'], results := s.results ++ [.ok m'] }

/-- R103: the unit, first match wins in the order `ohm`, `A`, `V or mV`, `Hz`, `celsius`, `F`, else absent; with its string. -/
def Obligations.DecodeResolvesTheUnit : Prop :=
  ∀ (s : State) (f : Frame) (th hu te on : Fin 12),
    entry s.build.segtab th = segCode f.b1 f.b2 → entry s.build.segtab hu = segCode f.b3 f.b4 →
    entry s.build.segtab te = segCode f.b5 f.b6 → entry s.build.segtab on = segCode f.b7 f.b8 →
    ∃ m : Measurement,
      exec (.decode f) s = .next { s with batch := s.batch ++ [.ok m], results := s.results ++ [.ok m] } ∧
      m.unit.map unitText =
        if f.b11.getLsbD 2 then some "\u03A9"
        else if f.b12.getLsbD 3 then some "A"
        else if f.b12.getLsbD 2 || f.b13.getLsbD 2 then some "V"
        else if f.b12.getLsbD 1 then some "Hz"
        else if f.b13.getLsbD 1 then some "\u00B0C"
        else if f.b11.getLsbD 3 then some "F"
        else none

/-- R106, R136: a frame with any code outside the table fails as a whole. The result is the error alone, of a group that did
not match; no Measurement is produced and nothing else of the state changes. Which group is reported is not said here. The
payload, the code and the two whole bytes, is the spec's decision D9 (R131, notes/assumptions/12.md). -/
def Obligations.DecodeFailsOnAnIllegalCode : Prop :=
  ∀ (s : State) (f : Frame),
    (∃ g ∈ [(f.b1, f.b2), (f.b3, f.b4), (f.b5, f.b6), (f.b7, f.b8)], ∀ k, entry s.build.segtab k ≠ segCode g.1 g.2) →
    ∃ g ∈ [(f.b1, f.b2), (f.b3, f.b4), (f.b5, f.b6), (f.b7, f.b8)], (∀ k, entry s.build.segtab k ≠ segCode g.1 g.2) ∧
      exec (.decode f) s = .next { s with
        batch := s.batch ++ [.err (.unrecognizedSegmentPattern (segCode g.1 g.2) g.1 g.2)]
        results := s.results ++ [.err (.unrecognizedSegmentPattern (segCode g.1 g.2) g.1 g.2)] }

/-- R108, R132: of several groups with codes outside the table, the first in the order thousands, hundreds, tens, ones is
reported, with its whole bytes. The order is the spec's decision D8, the payload its decision D9. -/
def Obligations.FirstFailingGroupIsReported : Prop :=
  ∀ (s : State) (f : Frame) (before after : List (Byte × Byte)) (msb lsb : Byte),
    [(f.b1, f.b2), (f.b3, f.b4), (f.b5, f.b6), (f.b7, f.b8)] = before ++ (msb, lsb) :: after →
    (∀ g ∈ before, ∃ k, entry s.build.segtab k = segCode g.1 g.2) →
    (∀ k, entry s.build.segtab k ≠ segCode msb lsb) →
    exec (.decode f) s = .next (s.raise (.unrecognizedSegmentPattern (segCode msb lsb) msb lsb))

/-- DECODE reads back every field that MKFRAME writes, for every display and every table (R38 to R44, R51): the four glyphs,
the sign and the point bits, and the flag nibbles. -/
def Obligations.DecodeReadsBackTheDisplay : Prop :=
  ∀ (s : State) (d : FrameSpec),
    ∃ m : Measurement,
      exec (.decode (mkFrame s.build.segtab d)) s =
        .next { s with batch := s.batch ++ [.ok m], results := s.results ++ [.ok m] } ∧
      m.number = multiplierScale m.flags (decimalScale d.p d.q d.w (applySign d.s (rawReading (glyphValue (glyphAt d.th))
        (glyphValue (glyphAt d.hu)) (glyphValue (glyphAt d.te)) (glyphValue (glyphAt d.on))))) ∧
      m.unit = resolveUnit m.flags ∧
      m.flags = {
        ac := d.b0.getLsbD 3, dc := d.b0.getLsbD 2, auto := d.b0.getLsbD 1, rs232 := d.b0.getLsbD 0
        u := d.b9.getLsbD 3, n := d.b9.getLsbD 2, k := d.b9.getLsbD 1, diode := d.b9.getLsbD 0
        m := d.b10.getLsbD 3, percent := d.b10.getLsbD 2, M := d.b10.getLsbD 1, beep := d.b10.getLsbD 0
        F := d.b11.getLsbD 3, ohm := d.b11.getLsbD 2, rel := d.b11.getLsbD 1, hold := d.b11.getLsbD 0
        A := d.b12.getLsbD 3, V := d.b12.getLsbD 2, Hz := d.b12.getLsbD 1, battery := d.b12.getLsbD 1
        mV := d.b13.getLsbD 2, celsius := d.b13.getLsbD 1 }

/-- R45: two frames that differ only in ignored bits give the same Measurement, or errors with the same code. -/
def Obligations.IgnoredBitsDoNotMatter : Prop :=
  ∀ (s : State) (f g : Frame), usedBits f = usedBits g →
    ∃ r r' : Result, exec (.decode f) s = .next (s.deliver r) ∧ exec (.decode g) s = .next (s.deliver r') ∧
      (∀ m, r = .ok m ↔ r' = .ok m) ∧ errorCode? r = errorCode? r'

/-- R94: with no overload, no sign, no point and no multiplier, `number` is the display's integer exactly, and it is at most
9999. -/
def Obligations.IntegerReadingIsExact : Prop :=
  ∀ (s : State) (d : FrameSpec) (reading : Nat),
    displayInteger? (glyphAt d.th) (glyphAt d.hu) (glyphAt d.te) (glyphAt d.on) = some reading →
    d.s = false → d.p = false → d.q = false → d.w = false → d.b9.getLsbD 1 = false → d.b9.getLsbD 2 = false →
    d.b9.getLsbD 3 = false → d.b10.getLsbD 1 = false → d.b10.getLsbD 3 = false → d.b13.getLsbD 2 = false →
    ∃ m : Measurement, exec (.decode (mkFrame s.build.segtab d)) s = .next (s.deliver (.ok m)) ∧
      m.number = F64.ofNat reading ∧ m.number.toRat? = some (reading : ℚ) ∧ reading ≤ 9999

/-- R99: `number` is within a relative error of `2^-52 + 2^-106` of the ideal value `s * D * 10^(e - p)`: two roundings of at
most `2^-53` each. -/
def Obligations.NumberIsNearTheIdealValue : Prop :=
  ∀ (s : State) (f : Frame) (i : Ideal), idealReading? s.build.segtab f = some i →
    ∃ (m : Measurement) (x : ℚ), exec (.decode f) s = .next (s.deliver (.ok m)) ∧ m.number.toRat? = some x ∧
      |x - i.value| ≤ |i.value| * ((2 : ℚ) ^ (-52 : Int) + (2 : ℚ) ^ (-106 : Int))

/-- R101: if any glyph is an overload, `number` is an infinity with the sign of the frame, whatever the other glyphs, the
points and the multipliers are. -/
def Obligations.OverloadReadsInfinity : Prop :=
  ∀ (s : State) (d : FrameSpec),
    (glyphAt d.th = .overload ∨ glyphAt d.hu = .overload ∨ glyphAt d.te = .overload ∨ glyphAt d.on = .overload) →
    ∃ m : Measurement, exec (.decode (mkFrame s.build.segtab d)) s = .next (s.deliver (.ok m)) ∧
      m.number = F64.inf d.s

/-- R94, R102: no frame decodes to a NaN. -/
def Obligations.NumberIsNeverNaN : Prop :=
  ∀ (s t : State) (f : Frame) (m : Measurement), exec (.decode f) s = .next t → t.results = s.results ++ [.ok m] →
    m.number.isNumber = true

/-- R100: a reading of zero is a zero, with any sign, point and multiplier. Which zero is the spec's decision D7, and nothing
is said of it here. -/
def Obligations.ZeroReadingIsAZero : Prop :=
  ∀ (s : State) (d : FrameSpec),
    displayInteger? (glyphAt d.th) (glyphAt d.hu) (glyphAt d.te) (glyphAt d.on) = some 0 →
    ∃ m : Measurement, exec (.decode (mkFrame s.build.segtab d)) s = .next (s.deliver (.ok m)) ∧
      (m.number = F64.zero false ∨ m.number = F64.zero true)

/-- R109: a blank tube counts as digit 0 wherever it stands: entries 0 and 10 may be exchanged in any position, and the result
is the same. -/
def Obligations.BlankCountsAsZero : Prop :=
  ∀ (s : State) (d : FrameSpec) (th hu te on : Fin 12),
    (th = d.th ∨ (th ∈ [0, 10] ∧ d.th ∈ [0, 10])) → (hu = d.hu ∨ (hu ∈ [0, 10] ∧ d.hu ∈ [0, 10])) →
    (te = d.te ∨ (te ∈ [0, 10] ∧ d.te ∈ [0, 10])) → (on = d.on ∨ (on ∈ [0, 10] ∧ d.on ∈ [0, 10])) →
    ∃ m : Measurement, exec (.decode (mkFrame s.build.segtab d)) s = .next (s.deliver (.ok m)) ∧
      exec (.decode (mkFrame s.build.segtab { d with th := th, hu := hu, te := te, on := on })) s =
        .next (s.deliver (.ok m))

/-- The source's worked examples, for every table (95_test_vectors.md S5 to S8): four digits 5 read 5555.0; 1, 2, 3, 4 with
`decimalOne` reads 123.4; a negative kilo 50 reads -50000.0; `ohm` wins over `A`. The third clause is no example of the source
but the spec's own vector DE-4.13: 1, 2, 3, 4 with `decimalOne` and milli reads 0.12340000000000001, by two roundings. That bit
patterns are binary64 rounded to nearest even, once an operation, is the spec's decision D7 (notes/assumptions/11.md). -/
def Obligations.SourceExamplesDecode : Prop :=
  ∀ tab : SegTab,
    (∃ m, decodeFrame tab (mkFrame tab ⟨5, 5, 5, 5, false, false, false, false, 0, 0, 0, 0, 0, 0⟩) = .ok m ∧
      m.number.bits = 0x40B5B30000000000#64 ∧ m.unit = none) ∧
    (∃ m, decodeFrame tab (mkFrame tab ⟨1, 2, 3, 4, false, false, false, true, 0, 0, 0, 0, 0, 0⟩) = .ok m ∧
      m.number.bits = 0x405ED9999999999A#64) ∧
    (∃ m, decodeFrame tab (mkFrame tab ⟨1, 2, 3, 4, false, false, false, true, 0, 0, 8, 0, 0, 0⟩) = .ok m ∧
      m.number.bits = 0x3FBF972474538EF4#64) ∧
    (∃ m, decodeFrame tab (mkFrame tab ⟨0, 0, 5, 0, true, false, false, false, 0, 2, 0, 0, 0, 0⟩) = .ok m ∧
      m.number.bits = 0xC0E86A0000000000#64) ∧
    (∃ m, decodeFrame tab (mkFrame tab ⟨5, 5, 5, 5, false, false, false, false, 0, 0, 0, 4, 8, 0⟩) = .ok m ∧
      m.unit = some .ohm)

/-! ### The segment table -/

/-- R83, R92: each of the twelve rows answers its own glyph and value and changes nothing else, on every table. The values
are written as binary64 patterns: 0.0 to 9.0, 0.0 for a blank, +inf for an overload. That a digit group presented alone is
answered in `tubes` is the model's choice (notes/assumptions/4.md). -/
def Obligations.SegtabRowsAnswerTheirGlyph : Prop :=
  ∀ (s : State) (pad : GroupPad),
    exec (.segtab0 pad) s = .next { s with tubes := s.tubes ++ [⟨.digit 0, ⟨0x0000000000000000#64⟩⟩] } ∧
    exec (.segtab1 pad) s = .next { s with tubes := s.tubes ++ [⟨.digit 1, ⟨0x3FF0000000000000#64⟩⟩] } ∧
    exec (.segtab2 pad) s = .next { s with tubes := s.tubes ++ [⟨.digit 2, ⟨0x4000000000000000#64⟩⟩] } ∧
    exec (.segtab3 pad) s = .next { s with tubes := s.tubes ++ [⟨.digit 3, ⟨0x4008000000000000#64⟩⟩] } ∧
    exec (.segtab4 pad) s = .next { s with tubes := s.tubes ++ [⟨.digit 4, ⟨0x4010000000000000#64⟩⟩] } ∧
    exec (.segtab5 pad) s = .next { s with tubes := s.tubes ++ [⟨.digit 5, ⟨0x4014000000000000#64⟩⟩] } ∧
    exec (.segtab6 pad) s = .next { s with tubes := s.tubes ++ [⟨.digit 6, ⟨0x4018000000000000#64⟩⟩] } ∧
    exec (.segtab7 pad) s = .next { s with tubes := s.tubes ++ [⟨.digit 7, ⟨0x401C000000000000#64⟩⟩] } ∧
    exec (.segtab8 pad) s = .next { s with tubes := s.tubes ++ [⟨.digit 8, ⟨0x4020000000000000#64⟩⟩] } ∧
    exec (.segtab9 pad) s = .next { s with tubes := s.tubes ++ [⟨.digit 9, ⟨0x4022000000000000#64⟩⟩] } ∧
    exec (.segtab10 pad) s = .next { s with tubes := s.tubes ++ [⟨.blank, ⟨0x0000000000000000#64⟩⟩] } ∧
    exec (.segtab11 pad) s = .next { s with tubes := s.tubes ++ [⟨.overload, ⟨0x7FF0000000000000#64⟩⟩] }

/-- R49, R130, R131: a digit group whose code is in no entry raises `UnrecognizedSegmentPattern` with the code and the two
whole bytes, and changes nothing else. A group whose code is in the table raises nothing: it is answered with its entry. -/
def Obligations.IllegalCodeRaisesTheError : Prop :=
  ∀ (s : State) (msb lsb : Byte),
    ((∀ k, entry s.build.segtab k ≠ segCode msb lsb) →
      exec (.illegalSegcode msb lsb) s = .next { s with
        batch := s.batch ++ [.err (.unrecognizedSegmentPattern (segCode msb lsb) msb lsb)]
        results := s.results ++ [.err (.unrecognizedSegmentPattern (segCode msb lsb) msb lsb)] }) ∧
    (∀ k, entry s.build.segtab k = segCode msb lsb →
      exec (.illegalSegcode msb lsb) s =
        .next { s with tubes := s.tubes ++ [⟨glyphAt k, glyphValue (glyphAt k)⟩] })

/-- R49: for every table exactly 116 of the 128 codes are illegal. -/
def Obligations.ExactlyOneHundredSixteenCodesAreIllegal : Prop :=
  ∀ tab : SegTab, ((List.range 128).filter fun n => (lookup tab (BitVec.ofNat 7 n)).isNone).length = 116

/-! ### The pipeline -/

/-- R120: a transaction. A burst that the environment starts is pushed, and then every frame it gave is decoded, one step each
and in order, before the next operation begins: one result per frame, `Ok` or `Err` alike, and nothing filtered. The steps and
the queue of operations are the model's choice (notes/assumptions/2.md). -/
def Obligations.TransactionDecodesEveryFrame : Prop :=
  ∀ (s : State) (newBytes : List Byte) (later : List Stimulus), s.frames = [] → s.inputs = ⟨.burst, newBytes⟩ :: later →
    fits s.build (blockPush s.build.segtab s.carry newBytes).2 = true →
    Host.Core.run Sys2Proof.core (1 + (push s.carry newBytes).1.length) s =
      .next { s with
        carry := (push s.carry newBytes).2
        batch := (push s.carry newBytes).1.map (decodeFrame s.build.segtab)
        results := s.results ++ (push s.carry newBytes).1.map (decodeFrame s.build.segtab)
        inputs := later }

/-- R123: ABORT_BATCH gives all the Measurements if there is no error, and otherwise the first error and nothing else. -/
def Obligations.AbortBatchReportsTheFirstError : Prop :=
  ∀ rs : List Result,
    (∀ ms, abortBatch rs = .ok ms ↔ rs = ms.map Result.ok) ∧
    (∀ e, abortBatch rs = .err e ↔ ∃ (ms : List Measurement) (rest : List Result), rs = ms.map Result.ok ++ .err e :: rest)

/-- R126: a burst sent byte by byte with its last byte marked starts exactly one operation, the PUSH of that burst, however long
each byte is held while `in_ready` is 0 (notes/assumptions/8.md). -/
def Obligations.PortsDeliverTheBurst : Prop :=
  ∀ (bytes : List (Nat × Byte)) (later : List Edge), bytes ≠ [] →
    sampleAll [] (sendBurst bytes ++ later) =
      ((sampleAll [] later).1, ⟨.burst, bytes.map Prod.snd⟩ :: (sampleAll [] later).2)

/-- R126: the handshakes. `in_ready` is 1 exactly when every operation begun has run. Without it an edge takes nothing from the
input pins but `rst`, which discards the burst in progress and starts a RESET. A result stays presented until `out_ready`, and
the pulse of a transaction with no results lasts one cycle. The model's choices among these (notes/assumptions/8.md): that
`in_ready` is 1 as soon as every operation begun has run, that a flush too waits for it, that `rst` is taken without it, and that
the RESET is queued behind the operations begun. -/
def Obligations.HandshakesGuardTheWires : Prop :=
  ∀ (w : Wires) (p : PortIn),
    (w.inReady = true ↔ w.block.inputs = []) ∧
    (w.inReady = false → p.rst = false → (w.edge p).block = w.block ∧ (w.edge p).burst = w.burst) ∧
    (p.rst = true → (w.edge p).burst = [] ∧
      (w.edge p).block = { w.block with inputs := w.block.inputs ++ [⟨.reset, []⟩] }) ∧
    (∀ b bs, w.beats = b :: bs → b.result ≠ none → p.outReady = false → (w.edge p).beats = w.beats) ∧
    (∀ b bs, w.beats = b :: bs → (p.outReady = true ∨ b.result = none) → (w.edge p).beats = bs)

/-- R120, R126: a burst sent to a block that is ready, and then idle cycles in which the block does its steps after any waits,
leave on the output ports the beats of that transaction after those not yet taken. The steps, and that the beats appear when the
transaction ends, behind those not yet taken, are the model's choices (notes/assumptions/2.md, 8.md). -/
def Obligations.BurstOnTheWiresGivesItsBeats : Prop :=
  ∀ (w : Wires) (bytes : List Byte) (waits : List Nat), bytes ≠ [] → w.burst = [] → w.block.frames = [] →
    w.block.inputs = [] → (∀ b ∈ w.beats, b.result ≠ none) → fits w.block.build (push w.block.carry bytes).2 = true →
    waits.length = 1 + (push w.block.carry bytes).1.length →
    w.run (sendTicks bytes ++ idleTicks waits) = .next {
      block := { w.block with
        carry := (push w.block.carry bytes).2
        batch := (blockPush w.block.build.segtab w.block.carry bytes).1
        results := w.block.results ++ (blockPush w.block.build.segtab w.block.carry bytes).1 }
      burst := []
      beats := w.beats ++ outBeats (blockPush w.block.build.segtab w.block.carry bytes).1 }

/-- R107, R111, R126: on the output ports a transaction takes one beat a result, only its last beat is marked, a transaction
with no results is one marked beat, and unit code 7 is never produced (notes/assumptions/8.md). -/
def Obligations.OutputBeatsMarkTheLastResult : Prop :=
  (∀ rs : List Result, rs ≠ [] → (outBeats rs).map PortOut.result = rs.map (fun r => some (resultBus r)) ∧
    (outBeats rs).map PortOut.last = List.replicate (rs.length - 1) false ++ [true]) ∧
  outBeats [] = [⟨none, true⟩] ∧
  (∀ u, unitCode u ≠ 7) ∧
  (∀ u v, unitCode u = unitCode v → u = v)

/-- R111: the flag word of the result bus carries the flags in frame order, `flags[0] = ac` to `flags[21] = celsius`. -/
def Obligations.FlagWordCarriesTheFlags : Prop :=
  ∀ g : Flags, (List.range 22).map (flagWord g).getLsbD =
    [g.ac, g.dc, g.auto, g.rs232, g.u, g.n, g.k, g.diode, g.m, g.percent, g.M, g.beep, g.F, g.ohm, g.rel, g.hold, g.A, g.V,
      g.Hz, g.battery, g.mV, g.celsius]

/-! ### The machine -/

/-- A step runs the next input, and only it. A frame that waits is decoded first; else the environment's next operation
runs if its bytes are an instruction, and is refused by name if they are none; with neither, nothing changes (R32, R120, R152).
The queue of operations and the refusal are the model's choices (notes/assumptions/2.md, 15.md). -/
def Obligations.StepRunsTheNextInput : Prop :=
  ∀ s : State,
    (∀ f fs, s.frames = f :: fs → step s = exec (.decode f) { s with frames := fs }) ∧
    (∀ x xs i, s.frames = [] → s.inputs = x :: xs → decode s.build.segtab x = .ok i →
      step s = exec i { s with inputs := xs }) ∧
    (∀ x xs r, s.frames = [] → s.inputs = x :: xs → decode s.build.segtab x = .error r →
      step s = .refused (.malformedInput r)) ∧
    (s.frames = [] → s.inputs = [] → step s = .next s)

/-- A bare word that is placed is the very next instruction to run, in any state (notes/assumptions/6.md). -/
def Obligations.PlacedWordRunsNext : Prop :=
  ∀ (s : State) (nbits w : Nat) (i : Instr), decode s.build.segtab (wordInput nbits w) = .ok i →
    step (s.withFetchWord nbits w) = exec i { s with frames := [] }

/-- R19, R151: after reset `carry` is empty. That the interfaces are empty, `CARRY_CAP` is `none` (decision D4) and the table is
the unknown one are the model's choices (notes/assumptions/1.md, 2.md). -/
def Obligations.ResetStateIsEmpty : Prop :=
  State.reset = {
    build := { segtab := Config.segtab, carryCap := none }
    carry := []
    frames := []
    batch := []
    results := []
    tubes := []
    inputs := [] }

/-- The state after reset meets the invariant. -/
def Obligations.ResetMeetsTheInvariant : Prop := State.reset.Inv

/-- Every step keeps the invariant: `carry` is empty or one aligned group that is not whole (R11) and fits the build (R12), no
emitted frame holds a sync byte in bytes 1 to 13 (R69), and the transaction's results end the run's (R120, R128). -/
def Obligations.StepKeepsTheInvariant : Prop :=
  ∀ s t : State, s.Inv → step s = .next t → t.Inv

/-- R10, R18: PUSH, SYNC (a PUSH of one byte) and RESET are the only instructions that change `carry` or hand over frames; no
instruction of the Decoder does, whether it succeeds or fails. -/
def Obligations.OnlyTheFramerWritesCarry : Prop :=
  ∀ (i : Instr) (s t : State), exec i s = .next t → (t.carry ≠ s.carry ∨ t.frames ≠ s.frames) →
    (∃ newBytes, i = .push newBytes) ∨ (∃ low, i = .sync low) ∨ i = .reset

/-- R16, R35: no step writes the table or the capacity, whatever it runs; and no instruction touches the environment's
operations. -/
def Obligations.BuildIsNeverWritten : Prop :=
  (∀ s t : State, step s = .next t → t.build = s.build) ∧
  (∀ (i : Instr) (s t : State), exec i s = .next t → t.build = s.build ∧ t.inputs = s.inputs)

/-- R112: DECODE is a function of the frame and the table: on two states with the same table it delivers the same result, and
it changes nothing else in either. -/
def Obligations.DecodeIsAFunctionOfTheFrame : Prop :=
  ∀ (s s' : State) (f : Frame), s.build.segtab = s'.build.segtab →
    ∃ r : Result, exec (.decode f) s = .next { s with batch := s.batch ++ [r], results := s.results ++ [r] } ∧
      exec (.decode f) s' = .next { s' with batch := s'.batch ++ [r], results := s'.results ++ [r] }

/-- R67, R133: with an unbounded `carry` every instruction completes, in every state; and whatever stops is PUSH or SYNC with
the fault `CarryOverflow`. -/
def Obligations.OnlyAFullCarryStops : Prop :=
  ∀ (i : Instr) (s : State),
    (s.build.carryCap = none → ∃ t, exec i s = .next t) ∧
    ((∀ t, exec i s ≠ .next t) → exec i s = .fault .carryOverflow ∧
      ((∃ newBytes, i = .push newBytes) ∨ ∃ low, i = .sync low))
end

