-- ==== Sys2Proof/Laws/Float.lean ====
section
/-! SUPPORT. Binary64 arithmetic: what a pattern stands for, what one rounding does, when it is exact, and how far it is from
the exact value (R98, R99). -/
namespace Sys2Proof

/-! ### Patterns -/

theorem F64.toNat_ofMagnitude (neg : Bool) {m : Nat} (h : m < 2 ^ 63) :
    (F64.ofMagnitude neg m).bits.toNat = m + neg.toNat * 2 ^ 63 := by
  cases neg <;> simp [F64.ofMagnitude] <;> omega

theorem F64.testBit_ofMagnitude (neg : Bool) {m : Nat} (h : m < 2 ^ 63) (i : Nat) :
    (F64.ofMagnitude neg m).bits.getLsbD i = if i = 63 then neg else m.testBit i := by
  rw [← BitVec.testBit_toNat, F64.toNat_ofMagnitude neg h, Nat.add_comm]
  have h63 : m.testBit 63 = false := Nat.testBit_lt_two_pow h
  cases neg with
  | false =>
    by_cases hi : i = 63
    · subst hi
      simp [h63]
    · simp [hi]
  | true =>
    rw [Bool.toNat_true, Nat.one_mul]
    by_cases hi : i = 63
    · subst hi
      rw [Nat.testBit_two_pow_add_eq, h63, if_pos rfl]
      rfl
    · rw [if_neg hi]
      by_cases hlt : i < 63
      · exact Nat.testBit_two_pow_add_gt hlt _
      · have hp : 2 ^ 64 ≤ 2 ^ i := Nat.pow_le_pow_right (by decide) (by omega)
        rw [Nat.testBit_lt_two_pow (lt_of_lt_of_le (by omega) hp), Nat.testBit_lt_two_pow (lt_of_lt_of_le (by omega) hp)]

theorem F64.neg_ofMagnitude (neg : Bool) {m : Nat} (h : m < 2 ^ 63) : (F64.ofMagnitude neg m).neg = neg := by
  rw [F64.neg, F64.testBit_ofMagnitude neg h, if_pos rfl]

theorem F64.expField_ofMagnitude (neg : Bool) {m : Nat} (h : m < 2 ^ 63) :
    (F64.ofMagnitude neg m).expField = m / 2 ^ 52 := by
  rw [F64.expField, F64.toNat_ofMagnitude neg h]
  cases neg <;> simp <;> omega

theorem F64.fracField_ofMagnitude (neg : Bool) {m : Nat} (h : m < 2 ^ 63) :
    (F64.ofMagnitude neg m).fracField = m % 2 ^ 52 := by
  rw [F64.fracField, F64.toNat_ofMagnitude neg h]
  cases neg <;> (simp; try omega)

@[simp] theorem F64.parts_zero (neg : Bool) : (F64.zero neg).parts = .fin neg 0 (-1074) := by
  cases neg <;> decide

@[simp] theorem F64.parts_inf (neg : Bool) : (F64.inf neg).parts = .inf neg := by
  cases neg <;> decide

@[simp] theorem F64.parts_nan : F64.nan.parts = .nan := by decide

/-- `fneg` of a finite value or an infinity changes its sign and nothing else. -/
theorem F64.fneg_ofMagnitude (neg : Bool) {m : Nat} (h : m < 2 ^ 63) :
    (F64.ofMagnitude neg m).fneg = F64.ofMagnitude (!neg) m := by
  have hb : (F64.ofMagnitude neg m).fneg.bits = (F64.ofMagnitude (!neg) m).bits := by
    have h8 : 0x8000000000000000#64 = BitVec.twoPow 64 63 := by decide
    refine BitVec.eq_of_getLsbD_eq fun i hi => ?_
    rw [F64.fneg, BitVec.getLsbD_xor, F64.testBit_ofMagnitude neg h, F64.testBit_ofMagnitude (!neg) h, h8,
      BitVec.getLsbD_twoPow]
    by_cases h63 : i = 63
    · subst h63
      cases neg <;> rfl
    · simp [h63, Ne.symm h63]
  cases h1 : (F64.ofMagnitude neg m).fneg
  cases h2 : F64.ofMagnitude (!neg) m
  rw [h1, h2] at hb
  exact congrArg F64.mk hb

@[simp] theorem F64.fneg_zero (neg : Bool) : (F64.zero neg).fneg = F64.zero (!neg) :=
  F64.fneg_ofMagnitude neg (by decide)

@[simp] theorem F64.fneg_inf (neg : Bool) : (F64.inf neg).fneg = F64.inf (!neg) :=
  F64.fneg_ofMagnitude neg (by decide)

/-- A magnitude made of an exponent field and a significand stands for that significand at that place, also when the
significand is `2^53` and carries into the exponent field. -/
theorem F64.parts_ofMagnitude (neg : Bool) {k q : Nat} (hk : k ≤ 2044) (hq : 2 ^ 52 ≤ q) (hq2 : q ≤ 2 ^ 53) :
    ∃ (m : Nat) (e : Int), (F64.ofMagnitude neg (k * 2 ^ 52 + q)).parts = .fin neg m e ∧
      ((m : ℚ) * (2 : ℚ) ^ e = (q : ℚ) * (2 : ℚ) ^ ((k : Int) - 1074)) ∧
      (q < 2 ^ 53 → m = q ∧ e = (k : Int) - 1074) := by
  have hlt : k * 2 ^ 52 + q < 2 ^ 63 := by omega
  rcases Nat.lt_or_ge q (2 ^ 53) with h | h
  · have he : (k * 2 ^ 52 + q) / 2 ^ 52 = k + 1 := by omega
    have hf : (k * 2 ^ 52 + q) % 2 ^ 52 = q - 2 ^ 52 := by omega
    refine ⟨q, (k : Int) - 1074, ?_, rfl, fun _ => ⟨rfl, rfl⟩⟩
    rw [F64.parts, F64.expField_ofMagnitude neg hlt, F64.fracField_ofMagnitude neg hlt, F64.neg_ofMagnitude neg hlt, he, hf,
      if_neg (by omega), if_neg (by omega), show 2 ^ 52 + (q - 2 ^ 52) = q by omega,
      show ((k + 1 : Nat) : Int) - 1075 = (k : Int) - 1074 by omega]
  · have hq3 : q = 2 ^ 53 := by omega
    subst hq3
    have he : (k * 2 ^ 52 + 2 ^ 53) / 2 ^ 52 = k + 2 := by omega
    have hf : (k * 2 ^ 52 + 2 ^ 53) % 2 ^ 52 = 0 := by omega
    refine ⟨2 ^ 52, (k : Int) - 1073, ?_, ?_, fun h => absurd h (by omega)⟩
    · rw [F64.parts, F64.expField_ofMagnitude neg hlt, F64.fracField_ofMagnitude neg hlt, F64.neg_ofMagnitude neg hlt, he,
        hf, if_neg (by omega), if_neg (by omega), Nat.add_zero,
        show ((k + 2 : Nat) : Int) - 1075 = (k : Int) - 1073 by omega]
    · have h1 : (2 : ℚ) ^ ((k : Int) - 1073) = 2 * (2 : ℚ) ^ ((k : Int) - 1074) := by
        rw [← zpow_one_add₀ (by norm_num), show (1 : Int) + ((k : Int) - 1074) = (k : Int) - 1073 by omega]
      rw [h1]
      push_cast
      ring

/-! ### One rounding -/

theorem F64.roundQuotient_error {n d : Nat} (hd : 0 < d) :
    2 * n ≤ 2 * (F64.roundQuotient n d * d) + d ∧ 2 * (F64.roundQuotient n d * d) ≤ 2 * n + d := by
  have h := Nat.div_add_mod n d
  have hlt := Nat.mod_lt n hd
  have hc : n / d * d = d * (n / d) := Nat.mul_comm _ _
  unfold F64.roundQuotient
  split
  · rw [Nat.add_mul, Nat.one_mul, hc]; omega
  · rw [hc]; omega

theorem F64.roundQuotient_bounds {n d lo hi : Nat} (hd : 0 < d) (hlo : lo * d ≤ n) (hhi : n < hi * d) :
    lo ≤ F64.roundQuotient n d ∧ F64.roundQuotient n d ≤ hi := by
  have h1 : lo ≤ n / d := (Nat.le_div_iff_mul_le hd).mpr hlo
  have h2 : n / d < hi := (Nat.div_lt_iff_lt_mul hd).mpr hhi
  unfold F64.roundQuotient
  split <;> omega

@[simp] theorem F64.roundQuotient_one (n : Nat) : F64.roundQuotient n 1 = n := by
  simp [F64.roundQuotient, Nat.mod_one]

theorem F64.roundQuotient_scale {n d c : Nat} (hc : 0 < c) :
    F64.roundQuotient (n * c) (d * c) = F64.roundQuotient n d := by
  unfold F64.roundQuotient
  have h1 : n * c / (d * c) = n / d := Nat.mul_div_mul_right n d hc
  have h2 : n * c % (d * c) = n % d * c := Nat.mul_mod_mul_right c n d
  have h3 : d * c < 2 * (n % d * c) ↔ d < 2 * (n % d) := by
    rw [← Nat.mul_assoc]
    exact Nat.mul_lt_mul_right hc
  have h4 : 2 * (n % d * c) = d * c ↔ 2 * (n % d) = d := by
    rw [← Nat.mul_assoc]
    exact Nat.mul_left_inj (by omega)
  rw [h1, h2]
  simp only [h3, h4]

/-- The leading power of two of a quotient. -/
theorem F64.log2_quotient {num den : Nat} (hd : 0 < den) (h : den ≤ num) :
    2 ^ Nat.log2 (num / den) * den ≤ num ∧ num < 2 ^ (Nat.log2 (num / den) + 1) * den := by
  have hne : num / den ≠ 0 := by
    have := Nat.div_pos h hd
    omega
  exact ⟨(Nat.le_div_iff_mul_le hd).mp (Nat.log2_self_le hne),
    (Nat.div_lt_iff_lt_mul hd).mp Nat.lt_log2_self⟩

theorem F64.log2_eq {n L : Nat} (h1 : 2 ^ L ≤ n) (h2 : n < 2 ^ (L + 1)) : Nat.log2 n = L := by
  have hne : n ≠ 0 := by
    have := Nat.two_pow_pos L
    omega
  have h3 := Nat.log2_self_le hne
  have h4 := @Nat.lt_log2_self n
  have h5 : Nat.log2 n < L + 1 := (Nat.pow_lt_pow_iff_right (by decide)).mp (lt_of_le_of_lt h3 h2)
  have h6 : L < Nat.log2 n + 1 := (Nat.pow_lt_pow_iff_right (by decide)).mp (lt_of_le_of_lt h1 h4)
  omega

/-- The scaled numerator and denominator of `F64.round`. -/
def F64.scaled (num den : Nat) (e f : Int) : Nat × Nat :=
  (num * 2 ^ (e - f).toNat, den * 2 ^ (f - e).toNat)

theorem F64.scaled_value {num den : Nat} {e f : Int} (hd : 0 < den) :
    ((F64.scaled num den e f).1 : ℚ) / ((F64.scaled num den e f).2 : ℚ) * (2 : ℚ) ^ f =
      (num : ℚ) / (den : ℚ) * (2 : ℚ) ^ e := by
  have hd' : (den : ℚ) ≠ 0 := by exact_mod_cast hd.ne'
  have h2 : (2 : ℚ) ≠ 0 := by norm_num
  simp only [F64.scaled]
  push_cast
  rcases le_total e f with h | h
  · have h1 : (e - f).toNat = 0 := by omega
    have h3 : (2 : ℚ) ^ f = (2 : ℚ) ^ (f - e).toNat * (2 : ℚ) ^ e := by
      rw [← zpow_natCast, ← zpow_add₀ h2]
      congr 1; omega
    rw [h1, h3]
    field_simp
    try ring
  · have h1 : (f - e).toNat = 0 := by omega
    have h3 : (2 : ℚ) ^ e = (2 : ℚ) ^ (e - f).toNat * (2 : ℚ) ^ f := by
      rw [← zpow_natCast, ← zpow_add₀ h2]
      congr 1; omega
    rw [h1, h3]
    field_simp
    try ring

/-- One rounding in the normal range: the sign is the given one, and the value is the rounded significand at the last
place. -/
theorem F64.round_spec (neg : Bool) {num den : Nat} {e f : Int} (hd : 0 < den) (h : den ≤ num)
    (hf : f = e + (Nat.log2 (num / den) : Int) - 52) (hlo : -1074 ≤ f) (hhi : f ≤ 970) :
    ∃ (q m : Nat) (e' : Int), q = F64.roundQuotient (F64.scaled num den e f).1 (F64.scaled num den e f).2 ∧
      2 ^ 52 * (F64.scaled num den e f).2 ≤ (F64.scaled num den e f).1 ∧
      q ≤ 2 ^ 53 ∧ (F64.round neg num den e).parts = .fin neg m e' ∧
      (m : ℚ) * (2 : ℚ) ^ e' = (q : ℚ) * (2 : ℚ) ^ f ∧ (q < 2 ^ 53 → m = q ∧ e' = f) := by
  obtain ⟨h1, h2⟩ := F64.log2_quotient hd h
  have hlast : F64.lastPlace num den e = f := by
    rw [F64.lastPlace, ← hf]
    omega
  have hD : 0 < (F64.scaled num den e f).2 := Nat.mul_pos hd (Nat.two_pow_pos _)
  have hb : 2 ^ 52 * (F64.scaled num den e f).2 ≤ (F64.scaled num den e f).1 ∧
      (F64.scaled num den e f).1 < 2 ^ 53 * (F64.scaled num den e f).2 := by
    generalize hL : Nat.log2 (num / den) = L at h1 h2 hf
    simp only [F64.scaled]
    rcases Nat.le_total L 52 with hle | hle
    · have ha : (e - f).toNat = 52 - L := by omega
      have hc : (f - e).toNat = 0 := by omega
      have hp : 2 ^ 52 = 2 ^ L * 2 ^ (52 - L) := by rw [← Nat.pow_add]; congr 1; omega
      have hp2 : 2 ^ 53 = 2 ^ (L + 1) * 2 ^ (52 - L) := by rw [← Nat.pow_add]; congr 1; omega
      rw [ha, hc, hp, hp2, Nat.pow_zero, Nat.mul_one]
      constructor
      · calc 2 ^ L * 2 ^ (52 - L) * den = 2 ^ L * den * 2 ^ (52 - L) := by ring
          _ ≤ num * 2 ^ (52 - L) := Nat.mul_le_mul_right _ h1
      · calc num * 2 ^ (52 - L) < 2 ^ (L + 1) * den * 2 ^ (52 - L) :=
              Nat.mul_lt_mul_of_pos_right h2 (Nat.two_pow_pos _)
          _ = 2 ^ (L + 1) * 2 ^ (52 - L) * den := by ring
    · have ha : (e - f).toNat = 0 := by omega
      have hc : (f - e).toNat = L - 52 := by omega
      have hp : 2 ^ L = 2 ^ 52 * 2 ^ (L - 52) := by rw [← Nat.pow_add]; congr 1; omega
      have hp2 : 2 ^ (L + 1) = 2 ^ 53 * 2 ^ (L - 52) := by rw [← Nat.pow_add]; congr 1; omega
      rw [ha, hc, Nat.pow_zero, Nat.mul_one]
      rw [hp] at h1
      rw [hp2] at h2
      constructor
      · calc 2 ^ 52 * (den * 2 ^ (L - 52)) = 2 ^ 52 * 2 ^ (L - 52) * den := by ring
          _ ≤ num := h1
      · calc num < 2 ^ 53 * 2 ^ (L - 52) * den := h2
          _ = 2 ^ 53 * (den * 2 ^ (L - 52)) := by ring
  obtain ⟨hq1, hq2⟩ := F64.roundQuotient_bounds hD hb.1 hb.2
  have hnum : num ≠ 0 := by omega
  obtain ⟨k, hk⟩ : ∃ k : Nat, (k : Int) = f + 1074 := ⟨(f + 1074).toNat, by omega⟩
  obtain ⟨m, e', hp, hv, hx⟩ := F64.parts_ofMagnitude neg (k := k) (by omega) hq1 hq2
  have hf2 : (k : Int) - 1074 = f := by omega
  rw [hf2] at hv hx
  refine ⟨_, m, e', rfl, hb.1, hq2, ?_, hv, hx⟩
  have hr : F64.round neg num den e = F64.ofMagnitude neg
      (k * 2 ^ 52 + F64.roundQuotient (F64.scaled num den e f).1 (F64.scaled num den e f).2) := by
    have hmin : min (k * 2 ^ 52 + F64.roundQuotient (F64.scaled num den e f).1 (F64.scaled num den e f).2)
        F64.infMagnitude = k * 2 ^ 52 + F64.roundQuotient (F64.scaled num den e f).1 (F64.scaled num den e f).2 := by
      apply Nat.min_eq_left
      simp only [F64.infMagnitude]
      omega
    rw [← hmin, F64.round, if_neg hnum]
    simp only [hlast, F64.scaled, ← hk, Int.toNat_natCast]
  rw [hr, hp]

/-- One rounding in the normal range is within `2^-53` of the exact value, relatively (R99). -/
theorem F64.round_error (neg : Bool) {num den : Nat} {e : Int} (hd : 0 < den) (h : den ≤ num)
    (hlo : -1022 ≤ e + (Nat.log2 (num / den) : Int)) (hhi : e + (Nat.log2 (num / den) : Int) ≤ 1022) :
    ∃ (m : Nat) (e' : Int), (F64.round neg num den e).parts = .fin neg m e' ∧
      |(m : ℚ) * (2 : ℚ) ^ e' - (num : ℚ) / den * (2 : ℚ) ^ e| ≤ (num : ℚ) / den * (2 : ℚ) ^ e * (2 : ℚ) ^ (-53 : Int) := by
  obtain ⟨f, hf⟩ : ∃ f, f = e + (Nat.log2 (num / den) : Int) - 52 := ⟨_, rfl⟩
  obtain ⟨q, m, e', hq, hq1, -, hp, hv, -⟩ := F64.round_spec neg hd h hf (by omega) (by omega)
  refine ⟨m, e', hp, ?_⟩
  have hD : 0 < (F64.scaled num den e f).2 := Nat.mul_pos hd (Nat.two_pow_pos _)
  obtain ⟨he1, he2⟩ := F64.roundQuotient_error (n := (F64.scaled num den e f).1) hD
  rw [← hq] at he1 he2
  rw [hv, ← F64.scaled_value (num := num) (e := e) (f := f) hd]
  have hD' : (0 : ℚ) < ((F64.scaled num den e f).2 : ℚ) := by exact_mod_cast hD
  have h2f : (0 : ℚ) < (2 : ℚ) ^ f := zpow_pos (by norm_num) _
  generalize (F64.scaled num den e f).1 = N at *
  generalize (F64.scaled num den e f).2 = D at *
  have he1' : (2 : ℚ) * N ≤ 2 * (q * D) + D := by exact_mod_cast he1
  have he2' : (2 : ℚ) * (q * D) ≤ 2 * N + D := by exact_mod_cast he2
  have hhalf : |(q : ℚ) - N / D| ≤ 1 / 2 := by
    rw [abs_le]
    constructor
    · rw [neg_le_sub_iff_le_add, div_le_iff₀ hD']
      linarith
    · rw [sub_le_iff_le_add, ← sub_le_iff_le_add', le_div_iff₀ hD']
      linarith
  have hbig : (2 : ℚ) ^ 52 ≤ N / D := by
    rw [le_div_iff₀ hD']
    exact_mod_cast hq1
  have hsub : (q : ℚ) * (2 : ℚ) ^ f - N / D * (2 : ℚ) ^ f = (q - N / D) * (2 : ℚ) ^ f := by ring
  rw [hsub, abs_mul, abs_of_pos h2f]
  have h53 : (1 / 2 : ℚ) = (2 : ℚ) ^ 52 * (2 : ℚ) ^ (-53 : Int) := by norm_num
  calc |(q : ℚ) - N / D| * (2 : ℚ) ^ f ≤ 1 / 2 * (2 : ℚ) ^ f := by gcongr
    _ ≤ N / D * (2 : ℚ) ^ (-53 : Int) * (2 : ℚ) ^ f := by rw [h53]; gcongr
    _ = N / D * (2 : ℚ) ^ f * (2 : ℚ) ^ (-53 : Int) := by ring

/-- A power of two may stand in the numerator or in the exponent. -/
theorem F64.round_scale (neg : Bool) {num den : Nat} {e : Int} (j : Nat) (hd : 0 < den) (h : den ≤ num) :
    F64.round neg (num * 2 ^ j) den e = F64.round neg num den (e + j) := by
  obtain ⟨h1, h2⟩ := F64.log2_quotient hd h
  have hlog : Nat.log2 (num * 2 ^ j / den) = Nat.log2 (num / den) + j := by
    apply F64.log2_eq
    · rw [Nat.le_div_iff_mul_le hd]
      calc 2 ^ (Nat.log2 (num / den) + j) * den = 2 ^ Nat.log2 (num / den) * den * 2 ^ j := by ring
        _ ≤ num * 2 ^ j := Nat.mul_le_mul_right _ h1
    · rw [Nat.div_lt_iff_lt_mul hd]
      calc num * 2 ^ j < 2 ^ (Nat.log2 (num / den) + 1) * den * 2 ^ j := Nat.mul_lt_mul_of_pos_right h2 (Nat.two_pow_pos _)
        _ = 2 ^ (Nat.log2 (num / den) + j + 1) * den := by ring
  have hlast : F64.lastPlace (num * 2 ^ j) den e = F64.lastPlace num den (e + j) := by
    simp only [F64.lastPlace, hlog]
    omega
  have hz : num * 2 ^ j ≠ 0 := Nat.mul_ne_zero (by omega) (by positivity)
  rw [F64.round, F64.round, if_neg hz, if_neg (by omega)]
  simp only [hlast]
  generalize F64.lastPlace num den (e + j) = f
  have hq : F64.roundQuotient (num * 2 ^ j * 2 ^ (e - f).toNat) (den * 2 ^ (f - e).toNat) =
      F64.roundQuotient (num * 2 ^ (e + j - f).toNat) (den * 2 ^ (f - (e + j)).toNat) := by
    rcases le_total f e with hfe | hfe
    · rw [show (f - e).toNat = 0 by omega, show (f - (e + j)).toNat = 0 by omega,
        show (e + j - f).toNat = j + (e - f).toNat by omega, Nat.pow_add, Nat.mul_assoc]
    · rw [show (e - f).toNat = 0 by omega, Nat.pow_zero, Nat.mul_one]
      rcases le_total (e + j) f with hj | hj
      · rw [show (e + j - f).toNat = 0 by omega, show (f - e).toNat = (f - (e + j)).toNat + j by omega, Nat.pow_add,
          ← Nat.mul_assoc, F64.roundQuotient_scale (Nat.two_pow_pos _), Nat.pow_zero, Nat.mul_one]
      · rw [show (f - (e + j)).toNat = 0 by omega, Nat.pow_zero, Nat.mul_one]
        have hjs : j = (e + j - f).toNat + (f - e).toNat := by omega
        rw [show num * 2 ^ j = num * 2 ^ (e + j - f).toNat * 2 ^ (f - e).toNat by
          rw [Nat.mul_assoc, ← Nat.pow_add, ← hjs]]
        exact F64.roundQuotient_scale (Nat.two_pow_pos _)
  rw [hq]

/-! ### Integers -/

@[simp] theorem F64.ofNat_zero : F64.ofNat 0 = F64.zero false := rfl

/-- A natural below `2^53` is represented exactly (R94). -/
theorem F64.parts_ofNat {n : Nat} (h : n < 2 ^ 53) : ∃ j : Nat, (F64.ofNat n).parts = .fin false (n * 2 ^ j) (-j) := by
  rcases Nat.eq_zero_or_pos n with rfl | hpos
  · exact ⟨1074, by rw [F64.ofNat_zero, F64.parts_zero, Nat.zero_mul]; rfl⟩
  · obtain ⟨q, m, e', hq, hq1, hq2, hp, hv, hx⟩ :=
      F64.round_spec (num := n) (den := 1) (e := 0) (f := (Nat.log2 n : Int) - 52) false Nat.one_pos hpos (by simp)
        (by omega) (by
          have : Nat.log2 n < 53 := (Nat.log2_lt (by omega)).mpr h
          omega)
    have hL : Nat.log2 n ≤ 52 := by
      have : Nat.log2 n < 53 := (Nat.log2_lt (by omega)).mpr h
      omega
    have hq' : q = n * 2 ^ (52 - Nat.log2 n) := by
      rw [hq, F64.scaled, show ((Nat.log2 n : Int) - 52 - 0).toNat = 0 by omega, Nat.pow_zero, Nat.mul_one]
      simp only [F64.roundQuotient_one]
      congr 2; omega
    have hlt : q < 2 ^ 53 := by
      have h2 := @Nat.lt_log2_self n
      calc q = n * 2 ^ (52 - Nat.log2 n) := hq'
        _ < 2 ^ (Nat.log2 n + 1) * 2 ^ (52 - Nat.log2 n) := Nat.mul_lt_mul_of_pos_right h2 (Nat.two_pow_pos _)
        _ = 2 ^ 53 := by rw [← Nat.pow_add]; congr 1; omega
    obtain ⟨hm, he⟩ := hx hlt
    refine ⟨52 - Nat.log2 n, ?_⟩
    rw [F64.ofNat, hp, hm, he, ← hq', show (Nat.log2 n : Int) - 52 = -((52 - Nat.log2 n : Nat) : Int) by omega]

theorem F64.toRat?_ofNat {n : Nat} (h : n < 2 ^ 53) : (F64.ofNat n).toRat? = some (n : ℚ) := by
  obtain ⟨j, hp⟩ := F64.parts_ofNat h
  rw [F64.toRat?, hp]
  have h2 : ((2 : ℚ) ^ j) ≠ 0 := pow_ne_zero _ (by norm_num)
  simp [F64.signed, h2]

/-- A product of naturals rounds as the natural. -/
theorem F64.fmul_ofNat {a b : Nat} (ha : a < 2 ^ 53) (hb : b < 2 ^ 53) :
    (F64.ofNat a).fmul (F64.ofNat b) = F64.ofNat (a * b) := by
  obtain ⟨j, hj⟩ := F64.parts_ofNat ha
  obtain ⟨k, hk⟩ := F64.parts_ofNat hb
  rw [F64.fmul, hj, hk]
  simp only [Bool.xor_self]
  rcases Nat.eq_zero_or_pos (a * b) with h0 | hpos
  · rw [show a * 2 ^ j * (b * 2 ^ k) = a * b * 2 ^ (j + k) by ring, h0, Nat.zero_mul, F64.round, if_pos rfl,
      F64.ofNat_zero]
  · rw [show a * 2 ^ j * (b * 2 ^ k) = a * b * 2 ^ (j + k) by ring, F64.round_scale false _ Nat.one_pos hpos, F64.ofNat]
    congr 1; push_cast; ring

/-- A sum of naturals rounds as the natural. -/
theorem F64.fadd_ofNat {a b : Nat} (ha : a < 2 ^ 53) (hb : b < 2 ^ 53) :
    (F64.ofNat a).fadd (F64.ofNat b) = F64.ofNat (a + b) := by
  obtain ⟨j, hj⟩ := F64.parts_ofNat ha
  obtain ⟨k, hk⟩ := F64.parts_ofNat hb
  rw [F64.fadd, hj, hk]
  simp only [F64.signed, Bool.false_eq_true, if_false, Bool.and_self]
  obtain ⟨J, hJ⟩ : ∃ J : Nat, (J : Int) = max j k := ⟨max j k, by simp⟩
  have hmin : min (-(j : Int)) (-(k : Int)) = -(J : Int) := by omega
  have hsum : ((a * 2 ^ j * 2 ^ (-(j : Int) - -(J : Int)).toNat : Nat) : Int) +
      ((b * 2 ^ k * 2 ^ (-(k : Int) - -(J : Int)).toNat : Nat) : Int) = (((a + b) * 2 ^ J : Nat) : Int) := by
    have h1 : j + (-(j : Int) - -(J : Int)).toNat = J := by omega
    have h2 : k + (-(k : Int) - -(J : Int)).toNat = J := by omega
    rw [← Nat.cast_add]
    congr 1
    rw [Nat.mul_assoc, Nat.mul_assoc, ← Nat.pow_add, ← Nat.pow_add, h1, h2]
    ring
  rw [hmin, hsum]
  rcases Nat.eq_zero_or_pos (a + b) with h0 | hpos
  · rw [h0, Nat.zero_mul]
    rfl
  · have hne : (((a + b) * 2 ^ J : Nat) : Int) ≠ 0 := by
      have : 0 < (a + b) * 2 ^ J := Nat.mul_pos hpos (Nat.two_pow_pos _)
      omega
    have hnn : ¬ (((a + b) * 2 ^ J : Nat) : Int) < 0 := by omega
    rw [if_neg hne, decide_eq_false hnn, Int.natAbs_natCast, F64.round_scale false _ Nat.one_pos hpos, F64.ofNat]
    congr 1; omega

/-! ### Infinities, and no NaN (R94, R101, R102) -/

theorem F64.parts_ofNat_pos {n : Nat} (h : n < 2 ^ 53) (hn : 0 < n) :
    ∃ m e, (F64.ofNat n).parts = .fin false m e ∧ m ≠ 0 := by
  obtain ⟨j, hj⟩ := F64.parts_ofNat h
  exact ⟨_, _, hj, Nat.mul_ne_zero (by omega) (by positivity)⟩

theorem F64.inf_fmul {x y : F64} {a b : Bool} {m : Nat} {e : Int} (hx : x.parts = .inf a) (hy : y.parts = .fin b m e)
    (hm : m ≠ 0) : x.fmul y = F64.inf (a ^^ b) := by
  simp [F64.fmul, hx, hy, hm]

theorem F64.inf_fdiv {x y : F64} {a b : Bool} {m : Nat} {e : Int} (hx : x.parts = .inf a) (hy : y.parts = .fin b m e) :
    x.fdiv y = F64.inf (a ^^ b) := by
  simp [F64.fdiv, hx, hy]

theorem F64.inf_fadd_fin {x y : F64} {a b : Bool} {m : Nat} {e : Int} (hx : x.parts = .inf a) (hy : y.parts = .fin b m e) :
    x.fadd y = F64.inf a := by
  simp [F64.fadd, hx, hy]

theorem F64.fin_fadd_inf {x y : F64} {a b : Bool} {m : Nat} {e : Int} (hx : x.parts = .fin b m e) (hy : y.parts = .inf a) :
    x.fadd y = F64.inf a := by
  simp [F64.fadd, hx, hy]

theorem F64.inf_fadd_inf {x y : F64} {a : Bool} (hx : x.parts = .inf a) (hy : y.parts = .inf a) :
    x.fadd y = F64.inf a := by
  simp [F64.fadd, hx, hy]

theorem F64.isNumber_ofMagnitude (neg : Bool) {m : Nat} (h : m ≤ F64.infMagnitude) :
    (F64.ofMagnitude neg m).isNumber = true := by
  have hlt : m < 2 ^ 63 := by
    simp only [F64.infMagnitude] at h
    omega
  rw [F64.isNumber, F64.parts, F64.expField_ofMagnitude neg hlt, F64.fracField_ofMagnitude neg hlt]
  split
  · have : m % 2 ^ 52 = 0 := by
      simp only [F64.infMagnitude] at h
      omega
    rw [if_pos this]
    rfl
  · split <;> rfl

theorem F64.isNumber_round (neg : Bool) (num den : Nat) (e : Int) : (F64.round neg num den e).isNumber = true := by
  unfold F64.round
  split
  · exact F64.isNumber_ofMagnitude neg (Nat.zero_le _)
  · exact F64.isNumber_ofMagnitude neg (Nat.min_le_right _ _)

theorem F64.isNumber_inf (neg : Bool) : (F64.inf neg).isNumber = true := F64.isNumber_ofMagnitude neg (Nat.le_refl _)

/-- A division by a finite value other than zero gives no NaN. -/
theorem F64.isNumber_fdiv {x y : F64} {b : Bool} {m : Nat} {e : Int} (hx : x.isNumber = true) (hy : y.parts = .fin b m e)
    (hm : m ≠ 0) : (x.fdiv y).isNumber = true := by
  cases hxp : x.parts with
  | nan => simp [F64.isNumber, hxp] at hx
  | inf a => rw [F64.inf_fdiv hxp hy]; exact F64.isNumber_inf _
  | fin a n f => simp [F64.fdiv, hxp, hy, hm, F64.isNumber_round]

/-- Nor does a multiplication by one. -/
theorem F64.isNumber_fmul {x y : F64} {b : Bool} {m : Nat} {e : Int} (hx : x.isNumber = true) (hy : y.parts = .fin b m e)
    (hm : m ≠ 0) : (x.fmul y).isNumber = true := by
  cases hxp : x.parts with
  | nan => simp [F64.isNumber, hxp] at hx
  | inf a => rw [F64.inf_fmul hxp hy hm]; exact F64.isNumber_inf _
  | fin a n f => simp [F64.fmul, hxp, hy, F64.isNumber_round]

/-! ### Sign change -/

/-- Flipping bit 63 leaves the bits below it. -/
theorem F64.toNat_fneg_mod (x : F64) {k : Nat} (hk : k ≤ 63) : x.fneg.bits.toNat % 2 ^ k = x.bits.toNat % 2 ^ k := by
  apply Nat.eq_of_testBit_eq
  intro i
  rw [F64.fneg, BitVec.toNat_xor, Nat.testBit_mod_two_pow, Nat.testBit_mod_two_pow, Nat.testBit_xor]
  by_cases hi : i < k
  · have h : (0x8000000000000000#64).toNat.testBit i = false := by
      rw [show (0x8000000000000000#64).toNat = 2 ^ 63 from rfl, Nat.testBit_two_pow]
      simp
      omega
    rw [h, Bool.xor_false]
  · simp [hi]

theorem F64.expField_fneg (x : F64) : x.fneg.expField = x.expField := by
  have h := x.toNat_fneg_mod (k := 63) (by decide)
  simp only [F64.expField]
  omega

theorem F64.fracField_fneg (x : F64) : x.fneg.fracField = x.fracField := x.toNat_fneg_mod (by decide)

theorem F64.neg_fneg (x : F64) : x.fneg.neg = !x.neg := by
  rw [F64.neg, F64.neg, F64.fneg, BitVec.getLsbD_xor, show (0x8000000000000000#64).getLsbD 63 = true by decide]
  simp

theorem F64.parts_fneg {x : F64} {a : Bool} {m : Nat} {e : Int} (h : x.parts = .fin a m e) :
    x.fneg.parts = .fin (!a) m e := by
  simp only [F64.parts, x.expField_fneg, x.fracField_fneg, x.neg_fneg] at h ⊢
  split_ifs at h ⊢ <;> simp_all

theorem F64.isNumber_fneg {x : F64} (h : x.isNumber = true) : x.fneg.isNumber = true := by
  simp only [F64.isNumber, F64.parts, x.expField_fneg, x.fracField_fneg] at h ⊢
  split_ifs at h ⊢ <;> simp_all

/-! ### Infinities and zeros by a literal -/

theorem F64.inf_fdiv_ofNat (neg : Bool) {n : Nat} (h : n < 2 ^ 53) (hn : 0 < n) :
    (F64.inf neg).fdiv (F64.ofNat n) = F64.inf neg := by
  obtain ⟨m, e, hp, -⟩ := F64.parts_ofNat_pos h hn
  rw [F64.inf_fdiv (F64.parts_inf _) hp, Bool.xor_false]

theorem F64.inf_fmul_ofNat (neg : Bool) {n : Nat} (h : n < 2 ^ 53) (hn : 0 < n) :
    (F64.inf neg).fmul (F64.ofNat n) = F64.inf neg := by
  obtain ⟨m, e, hp, hm⟩ := F64.parts_ofNat_pos h hn
  rw [F64.inf_fmul (F64.parts_inf _) hp hm, Bool.xor_false]

theorem F64.zero_fdiv_ofNat (neg : Bool) {n : Nat} (h : n < 2 ^ 53) (hn : 0 < n) :
    (F64.zero neg).fdiv (F64.ofNat n) = F64.zero neg := by
  obtain ⟨m, e, hp, hm⟩ := F64.parts_ofNat_pos h hn
  simp [F64.fdiv, hp, hm, F64.round]

theorem F64.zero_fmul_ofNat (neg : Bool) {n : Nat} (h : n < 2 ^ 53) (hn : 0 < n) :
    (F64.zero neg).fmul (F64.ofNat n) = F64.zero neg := by
  obtain ⟨m, e, hp, -⟩ := F64.parts_ofNat_pos h hn
  simp [F64.fmul, hp, F64.round]

end Sys2Proof
end

