-- ==== Sys2Proof/Laws/State.lean ====
section
/-! SUPPORT. One lemma per field per update of the state, and what `fits`, `fetch` and `settleGroup` do. -/
namespace Sys2Proof.Machine

@[simp] theorem State.framed_build (s : State) (c : List Byte) (fs : List Frame) : (s.framed c fs).build = s.build := rfl
@[simp] theorem State.framed_carry (s : State) (c : List Byte) (fs : List Frame) : (s.framed c fs).carry = c := rfl
@[simp] theorem State.framed_frames (s : State) (c : List Byte) (fs : List Frame) : (s.framed c fs).frames = s.frames ++ fs := rfl
@[simp] theorem State.framed_batch (s : State) (c : List Byte) (fs : List Frame) : (s.framed c fs).batch = [] := rfl
@[simp] theorem State.framed_results (s : State) (c : List Byte) (fs : List Frame) : (s.framed c fs).results = s.results := rfl
@[simp] theorem State.framed_tubes (s : State) (c : List Byte) (fs : List Frame) : (s.framed c fs).tubes = s.tubes := rfl
@[simp] theorem State.framed_inputs (s : State) (c : List Byte) (fs : List Frame) : (s.framed c fs).inputs = s.inputs := rfl

@[simp] theorem State.cleared_build (s : State) : (s.cleared).build = s.build := rfl
@[simp] theorem State.cleared_carry (s : State) : (s.cleared).carry = [] := rfl
@[simp] theorem State.cleared_frames (s : State) : (s.cleared).frames = s.frames := rfl
@[simp] theorem State.cleared_batch (s : State) : (s.cleared).batch = [] := rfl
@[simp] theorem State.cleared_results (s : State) : (s.cleared).results = [] := rfl
@[simp] theorem State.cleared_tubes (s : State) : (s.cleared).tubes = [] := rfl
@[simp] theorem State.cleared_inputs (s : State) : (s.cleared).inputs = s.inputs := rfl

@[simp] theorem State.deliver_build (s : State) (r : Result) : (s.deliver r).build = s.build := rfl
@[simp] theorem State.deliver_carry (s : State) (r : Result) : (s.deliver r).carry = s.carry := rfl
@[simp] theorem State.deliver_frames (s : State) (r : Result) : (s.deliver r).frames = s.frames := rfl
@[simp] theorem State.deliver_batch (s : State) (r : Result) : (s.deliver r).batch = s.batch ++ [r] := rfl
@[simp] theorem State.deliver_results (s : State) (r : Result) : (s.deliver r).results = s.results ++ [r] := rfl
@[simp] theorem State.deliver_tubes (s : State) (r : Result) : (s.deliver r).tubes = s.tubes := rfl
@[simp] theorem State.deliver_inputs (s : State) (r : Result) : (s.deliver r).inputs = s.inputs := rfl

@[simp] theorem State.raise_build (s : State) (e : DecodeError) : (s.raise e).build = s.build := rfl
@[simp] theorem State.raise_carry (s : State) (e : DecodeError) : (s.raise e).carry = s.carry := rfl
@[simp] theorem State.raise_frames (s : State) (e : DecodeError) : (s.raise e).frames = s.frames := rfl
@[simp] theorem State.raise_batch (s : State) (e : DecodeError) : (s.raise e).batch = s.batch ++ [.err e] := rfl
@[simp] theorem State.raise_results (s : State) (e : DecodeError) : (s.raise e).results = s.results ++ [.err e] := rfl
@[simp] theorem State.raise_tubes (s : State) (e : DecodeError) : (s.raise e).tubes = s.tubes := rfl
@[simp] theorem State.raise_inputs (s : State) (e : DecodeError) : (s.raise e).inputs = s.inputs := rfl

@[simp] theorem State.latch_build (s : State) (t : Tube) : (s.latch t).build = s.build := rfl
@[simp] theorem State.latch_carry (s : State) (t : Tube) : (s.latch t).carry = s.carry := rfl
@[simp] theorem State.latch_frames (s : State) (t : Tube) : (s.latch t).frames = s.frames := rfl
@[simp] theorem State.latch_batch (s : State) (t : Tube) : (s.latch t).batch = s.batch := rfl
@[simp] theorem State.latch_results (s : State) (t : Tube) : (s.latch t).results = s.results := rfl
@[simp] theorem State.latch_tubes (s : State) (t : Tube) : (s.latch t).tubes = s.tubes ++ [t] := rfl
@[simp] theorem State.latch_inputs (s : State) (t : Tube) : (s.latch t).inputs = s.inputs := rfl

@[simp] theorem State.present_build (s : State) (x : Stimulus) : (s.present x).build = s.build := rfl
@[simp] theorem State.present_carry (s : State) (x : Stimulus) : (s.present x).carry = s.carry := rfl
@[simp] theorem State.present_frames (s : State) (x : Stimulus) : (s.present x).frames = [] := rfl
@[simp] theorem State.present_batch (s : State) (x : Stimulus) : (s.present x).batch = s.batch := rfl
@[simp] theorem State.present_results (s : State) (x : Stimulus) : (s.present x).results = s.results := rfl
@[simp] theorem State.present_tubes (s : State) (x : Stimulus) : (s.present x).tubes = s.tubes := rfl
@[simp] theorem State.present_inputs (s : State) (x : Stimulus) : (s.present x).inputs = x :: s.inputs := rfl

@[simp] theorem State.settleGroup_tube (s : State) (t : Tube) : s.settleGroup (.tube t) = s.latch t := rfl

@[simp] theorem State.settleGroup_err (s : State) (e : DecodeError) : s.settleGroup (.err e) = s.raise e := rfl

@[simp] theorem fits_nil (build : Build) : fits build [] = true := by
  unfold fits
  cases build.carryCap <;> simp

theorem fits_of_unbounded {build : Build} (h : build.carryCap = none) (carry : List Byte) : fits build carry = true := by
  simp [fits, h]

theorem fits_iff (build : Build) (carry : List Byte) :
    fits build carry = true ↔ ∀ n, build.carryCap = some n → carry.length ≤ n := by
  unfold fits
  cases build.carryCap <;> simp

theorem fetch_of_frame {s : State} {f : Frame} {fs : List Frame} (h : s.frames = f :: fs) :
    fetch s = some (⟨.frame, f.toList⟩, { s with frames := fs }) := by
  simp [fetch, h]

theorem fetch_of_input {s : State} {x : Stimulus} {xs : List Stimulus} (hf : s.frames = []) (hx : s.inputs = x :: xs) :
    fetch s = some (x, { s with inputs := xs }) := by
  simp [fetch, hf, hx]

theorem fetch_of_idle {s : State} (hf : s.frames = []) (hx : s.inputs = []) : fetch s = none := by
  simp [fetch, hf, hx]

/-- Everything `fetch` can do. -/
theorem fetch_cases {s t : State} {x : Stimulus} (h : fetch s = some (x, t)) :
    (∃ f fs, s.frames = f :: fs ∧ x = ⟨.frame, f.toList⟩ ∧ t = { s with frames := fs }) ∨
      (∃ xs, s.frames = [] ∧ s.inputs = x :: xs ∧ t = { s with inputs := xs }) := by
  cases hf : s.frames with
  | cons f fs =>
    rw [fetch_of_frame hf] at h
    simp only [Option.some.injEq, Prod.mk.injEq] at h
    exact .inl ⟨f, fs, rfl, h.1.symm, h.2.symm⟩
  | nil =>
    cases hx : s.inputs with
    | cons y ys =>
      rw [fetch_of_input hf hx] at h
      simp only [Option.some.injEq, Prod.mk.injEq] at h
      exact .inr ⟨ys, rfl, by rw [h.1], by rw [← h.2, hf]⟩
    | nil => simp [fetch_of_idle hf hx] at h

end Sys2Proof.Machine
end

