-- ==== Sys2Proof/Laws/Fields.lean ====
section
/-! SUPPORT. The bit fields: nibbles, digit groups and frames, taken apart and put together. -/
namespace Sys2Proof

@[simp] theorem highNibble_byteOf (hi lo : Nibble) : highNibble (byteOf hi lo) = hi := by
  revert hi lo; decide +kernel

@[simp] theorem lowNibble_byteOf (hi lo : Nibble) : lowNibble (byteOf hi lo) = lo := by
  revert hi lo; decide +kernel

@[simp] theorem byteOf_nibbles (b : Byte) : byteOf (highNibble b) (lowNibble b) = b := by
  revert b; decide +kernel

theorem getLsbD_lowNibble (b : Byte) : ∀ i < 4, (lowNibble b).getLsbD i = b.getLsbD i := by
  revert b; decide +kernel

theorem getLsbD_byteOf (hi lo : Nibble) : ∀ i < 4, (byteOf hi lo).getLsbD i = lo.getLsbD i := by
  intro i hi4
  rw [← getLsbD_lowNibble _ i hi4, lowNibble_byteOf]

@[simp] theorem byteOf_bit0 (hi lo : Nibble) : (byteOf hi lo)[0] = lo[0] := getLsbD_byteOf hi lo 0 (by decide)

@[simp] theorem byteOf_bit1 (hi lo : Nibble) : (byteOf hi lo)[1] = lo[1] := getLsbD_byteOf hi lo 1 (by decide)

@[simp] theorem byteOf_bit2 (hi lo : Nibble) : (byteOf hi lo)[2] = lo[2] := getLsbD_byteOf hi lo 2 (by decide)

@[simp] theorem byteOf_bit3 (hi lo : Nibble) : (byteOf hi lo)[3] = lo[3] := getLsbD_byteOf hi lo 3 (by decide)

theorem isSync_iff_highNibble (b : Byte) : isSync b = true ↔ highNibble b = 0b0001#4 := by
  simp [isSync]

@[simp] theorem isSync_byteOf (hi lo : Nibble) : isSync (byteOf hi lo) = (hi == 0b0001#4) := by
  simp [isSync]

@[simp] theorem isSync_syncByte (low : Nibble) : isSync (syncByte low) = true := by
  simp [syncByte]

@[simp] theorem lowNibble_syncByte (low : Nibble) : lowNibble (syncByte low) = low := by
  simp [syncByte]

/-- A sync byte is the sync byte of its low nibble. -/
theorem syncByte_lowNibble {b : Byte} (h : isSync b = true) : syncByte (lowNibble b) = b := by
  rw [syncByte, ← (isSync_iff_highNibble b).mp h, byteOf_nibbles]

/-! ### Digit groups -/

/-- Only the low nibbles enter a segment code, and of the first only three bits (R41). -/
theorem segCode_lowNibbles (msb lsb : Byte) : segCode msb lsb = (lowNibble msb).extractLsb' 0 3 ++ lowNibble lsb := by
  have h : ∀ b : Byte, b.extractLsb' 0 3 = (lowNibble b).extractLsb' 0 3 := by decide +kernel
  rw [segCode, h]
  rfl

theorem segCode_congr {msb lsb msb' lsb' : Byte} (hm : (lowNibble msb).extractLsb' 0 3 = (lowNibble msb').extractLsb' 0 3)
    (hl : lowNibble lsb = lowNibble lsb') : segCode msb lsb = segCode msb' lsb' := by
  rw [segCode_lowNibbles, segCode_lowNibbles, hm, hl]

@[simp] theorem lowNibble_groupMsb (code : SegCode) (pad : GroupPad) :
    lowNibble (groupMsb code pad) = BitVec.ofBool pad.point ++ code.extractLsb' 4 3 := lowNibble_byteOf _ _

@[simp] theorem lowNibble_groupLsb (code : SegCode) (pad : GroupPad) :
    lowNibble (groupLsb code pad) = code.extractLsb' 0 4 := lowNibble_byteOf _ _

@[simp] theorem highNibble_groupMsb (code : SegCode) (pad : GroupPad) : highNibble (groupMsb code pad) = pad.msbHigh :=
  highNibble_byteOf _ _

@[simp] theorem highNibble_groupLsb (code : SegCode) (pad : GroupPad) : highNibble (groupLsb code pad) = pad.lsbHigh :=
  highNibble_byteOf _ _

/-- Bit 3 of a group's first byte is the point or sign bit (R42). -/
@[simp] theorem groupMsb_bit3 (code : SegCode) (pad : GroupPad) : (groupMsb code pad)[3] = pad.point := by
  have h : ∀ (p : Bool) (c : BitVec 3), (BitVec.ofBool p ++ c).getLsbD 3 = p := by decide +kernel
  have h3 := getLsbD_lowNibble (groupMsb code pad) 3 (by decide)
  rw [lowNibble_groupMsb, h] at h3
  exact h3.symm

/-- A digit group made for a code has that code (R41). The two bytes may be made with different pads. -/
@[simp] theorem segCode_group (code : SegCode) (pad pad' : GroupPad) :
    segCode (groupMsb code pad) (groupLsb code pad') = code := by
  rw [segCode_lowNibbles, lowNibble_groupMsb, lowNibble_groupLsb]
  have h : ∀ (p : Bool) (c : SegCode),
      (BitVec.ofBool p ++ c.extractLsb' 4 3).extractLsb' 0 3 ++ c.extractLsb' 0 4 = c := by decide +kernel
  exact h _ _

@[simp] theorem groupPad_group (code : SegCode) (pad : GroupPad) :
    groupPad (groupMsb code pad) (groupLsb code pad) = pad := by
  simp [groupPad]

/-- A digit group is made of its code and the bits beside it. -/
@[simp] theorem groupMsb_segCode (msb lsb : Byte) : groupMsb (segCode msb lsb) (groupPad msb lsb) = msb := by
  have h : ∀ (a : BitVec 3) (b : BitVec 4), (a ++ b).extractLsb' 4 3 = a := by decide +kernel
  have h2 : ∀ b : Byte, byteOf (highNibble b) (BitVec.ofBool (b.getLsbD 3) ++ b.extractLsb' 0 3) = b := by decide +kernel
  have h3 : (segCode msb lsb).extractLsb' 4 3 = msb.extractLsb' 0 3 := h _ _
  rw [groupMsb, h3]
  exact h2 msb

@[simp] theorem groupLsb_segCode (msb lsb : Byte) : groupLsb (segCode msb lsb) (groupPad msb lsb) = lsb := by
  have h : ∀ (a : BitVec 3) (b : BitVec 4), (a ++ b).extractLsb' 0 4 = b := by decide +kernel
  have h3 : (segCode msb lsb).extractLsb' 0 4 = lowNibble lsb := h _ _
  rw [groupLsb, h3]
  exact byteOf_nibbles lsb

/-! ### Frames -/

@[simp] theorem Frame.length_toList (f : Frame) : f.toList.length = 14 := rfl

@[simp] theorem Frame.ofList?_toList (f : Frame) : Frame.ofList? f.toList = some f := rfl

/-- Exactly the sequences of 14 bytes are frames (R37, R80). -/
theorem Frame.ofList?_eq_some {bytes : List Byte} {f : Frame} (h : Frame.ofList? bytes = some f) : f.toList = bytes := by
  unfold Frame.ofList? at h
  split at h
  · simp only [Option.some.injEq] at h
    rw [← h]; rfl
  · cases h

theorem Frame.exists_of_length {bytes : List Byte} (h : bytes.length = 14) : ∃ f : Frame, f.toList = bytes := by
  match bytes, h with
  | [b0, b1, b2, b3, b4, b5, b6, b7, b8, b9, b10, b11, b12, b13], _ =>
    exact ⟨⟨b0, b1, b2, b3, b4, b5, b6, b7, b8, b9, b10, b11, b12, b13⟩, rfl⟩

theorem Frame.toList_injective {f g : Frame} (h : f.toList = g.toList) : f = g := by
  have := congrArg Frame.ofList? h
  simpa using this

end Sys2Proof
end

