-- ==== Sys2Proof/Laws/Table.lean ====
section
/-! SUPPORT. The segment table: what the lookup and one round of R80 step 1 answer. -/
namespace Sys2Proof.Machine

/-- The source's property 1: no two entries share a pattern (R47). -/
theorem entry_injective (tab : SegTab) {j k : Fin 12} (h : entry tab j = entry tab k) : j = k := by
  have hn := tab.distinct
  rw [List.nodup_iff_injective_get] at hn
  have hj : j.val < tab.codes.toList.length := by simp
  have hk : k.val < tab.codes.toList.length := by simp
  have := @hn ⟨j.val, hj⟩ ⟨k.val, hk⟩ (by simpa [entry] using h)
  exact Fin.ext (by simpa using this)

theorem mem_tableIndices (k : Fin 12) : k ∈ tableIndices := by
  revert k; decide

/-- The lookup finds exactly the index whose entry is the code (R83). -/
theorem lookup_eq_some_iff {tab : SegTab} {code : SegCode} {k : Fin 12} :
    lookup tab code = some k ↔ entry tab k = code := by
  constructor
  · intro h
    simpa using List.find?_some h
  · intro h
    cases hl : lookup tab code with
    | none =>
      have := List.find?_eq_none.mp hl k (mem_tableIndices k)
      simp [h] at this
    | some j =>
      have hj : entry tab j = code := by simpa using List.find?_some hl
      rw [entry_injective tab (hj.trans h.symm)]

@[simp] theorem lookup_entry (tab : SegTab) (k : Fin 12) : lookup tab (entry tab k) = some k :=
  lookup_eq_some_iff.mpr rfl

theorem lookup_eq_none_iff {tab : SegTab} {code : SegCode} : lookup tab code = none ↔ ∀ k, entry tab k ≠ code := by
  constructor
  · intro h k hk
    rw [← hk, lookup_entry] at h
    cases h
  · intro h
    cases hl : lookup tab code with
    | none => rfl
    | some k => exact absurd (lookup_eq_some_iff.mp hl) (h k)

theorem decodeGroup_of_entry {tab : SegTab} {msb lsb : Byte} {k : Fin 12} (h : entry tab k = segCode msb lsb) :
    decodeGroup tab msb lsb = .tube (tubeAt k) := by
  simp [decodeGroup, lookup_eq_some_iff.mpr h]

theorem decodeGroup_of_illegal {tab : SegTab} {msb lsb : Byte} (h : ∀ k, entry tab k ≠ segCode msb lsb) :
    decodeGroup tab msb lsb = .err (groupError msb lsb) := by
  simp [decodeGroup, lookup_eq_none_iff.mpr h]

@[simp] theorem decodeGroup_group (tab : SegTab) (k : Fin 12) (pad pad' : GroupPad) :
    decodeGroup tab (groupMsb (entry tab k) pad) (groupLsb (entry tab k) pad') = .tube (tubeAt k) :=
  decodeGroup_of_entry (by simp)

/-- Everything one round of R80 step 1 can answer. -/
theorem decodeGroup_cases (tab : SegTab) (msb lsb : Byte) :
    (∃ k, entry tab k = segCode msb lsb ∧ decodeGroup tab msb lsb = .tube (tubeAt k)) ∨
      ((∀ k, entry tab k ≠ segCode msb lsb) ∧ decodeGroup tab msb lsb = .err (groupError msb lsb)) := by
  cases hl : lookup tab (segCode msb lsb) with
  | none =>
    have h := lookup_eq_none_iff.mp hl
    exact .inr ⟨h, decodeGroup_of_illegal h⟩
  | some k =>
    have h := lookup_eq_some_iff.mp hl
    exact .inl ⟨k, h, decodeGroup_of_entry h⟩

end Sys2Proof.Machine
end

