-- ==== Sys2Proof/Laws/Decoder.lean ====
section
/-! SUPPORT. The Decoder: what DECODE answers, and what a digit group presented alone does to the state. -/
namespace Sys2Proof.Machine

/-- DECODE of a frame whose four codes are in the table (R80). -/
theorem decodeFrame_of_entries {tab : SegTab} {f : Frame} {th hu te on : Fin 12} (h1 : entry tab th = segCode f.b1 f.b2)
    (h2 : entry tab hu = segCode f.b3 f.b4) (h3 : entry tab te = segCode f.b5 f.b6)
    (h4 : entry tab on = segCode f.b7 f.b8) :
    decodeFrame tab f =
      .ok (assemble f (tubeAt th).value (tubeAt hu).value (tubeAt te).value (tubeAt on).value) := by
  simp [decodeFrame, decodeGroup_of_entry h1, decodeGroup_of_entry h2, decodeGroup_of_entry h3, decodeGroup_of_entry h4]

/-- The four digit groups of a frame, in the order of R80 step 1 (R40). -/
def digitGroups (f : Frame) : List (Byte × Byte) := [(f.b1, f.b2), (f.b3, f.b4), (f.b5, f.b6), (f.b7, f.b8)]

/-- Everything a DECODE can answer: a Measurement if the four codes are in the table, else the error of a group whose code is
not. -/
theorem decodeFrame_cases (tab : SegTab) (f : Frame) :
    (∃ th hu te on, entry tab th = segCode f.b1 f.b2 ∧ entry tab hu = segCode f.b3 f.b4 ∧
      entry tab te = segCode f.b5 f.b6 ∧ entry tab on = segCode f.b7 f.b8 ∧
      decodeFrame tab f =
        .ok (assemble f (tubeAt th).value (tubeAt hu).value (tubeAt te).value (tubeAt on).value)) ∨
    (∃ g ∈ digitGroups f, (∀ k, entry tab k ≠ segCode g.1 g.2) ∧ decodeFrame tab f = .err (groupError g.1 g.2)) := by
  rcases decodeGroup_cases tab f.b1 f.b2 with ⟨th, h1, -⟩ | ⟨h1, e1⟩
  · rcases decodeGroup_cases tab f.b3 f.b4 with ⟨hu, h2, -⟩ | ⟨h2, e2⟩
    · rcases decodeGroup_cases tab f.b5 f.b6 with ⟨te, h3, -⟩ | ⟨h3, e3⟩
      · rcases decodeGroup_cases tab f.b7 f.b8 with ⟨on, h4, -⟩ | ⟨h4, e4⟩
        · exact .inl ⟨th, hu, te, on, h1, h2, h3, h4, decodeFrame_of_entries h1 h2 h3 h4⟩
        · exact .inr ⟨(f.b7, f.b8), by simp [digitGroups], h4, by
            simp [decodeFrame, decodeGroup_of_entry h1, decodeGroup_of_entry h2, decodeGroup_of_entry h3, e4]⟩
      · exact .inr ⟨(f.b5, f.b6), by simp [digitGroups], h3, by
          simp [decodeFrame, decodeGroup_of_entry h1, decodeGroup_of_entry h2, e3]⟩
    · exact .inr ⟨(f.b3, f.b4), by simp [digitGroups], h2, by simp [decodeFrame, decodeGroup_of_entry h1, e2]⟩
  · exact .inr ⟨(f.b1, f.b2), by simp [digitGroups], h1, by simp [decodeFrame, e1]⟩

/-- A digit group with the code of entry `k` is answered with entry `k`. -/
theorem presentEntry_eq (k : Fin 12) (pad : GroupPad) (s : State) : presentEntry k pad s = .next (s.latch (tubeAt k)) := by
  simp [presentEntry, presentGroup]

/-- A digit group whose code is in no entry raises the error. -/
theorem presentGroup_of_illegal {msb lsb : Byte} {s : State} (h : ∀ k, entry s.build.segtab k ≠ segCode msb lsb) :
    presentGroup msb lsb s = .next (s.raise (groupError msb lsb)) := by
  simp [presentGroup, decodeGroup_of_illegal h]

/-- Everything a digit group presented alone can do to the state. -/
theorem presentGroup_cases (msb lsb : Byte) (s : State) :
    (∃ k, presentGroup msb lsb s = .next (s.latch (tubeAt k))) ∨
      presentGroup msb lsb s = .next (s.raise (groupError msb lsb)) := by
  rcases decodeGroup_cases s.build.segtab msb lsb with ⟨k, -, h⟩ | ⟨-, h⟩
  · exact .inl ⟨k, by simp [presentGroup, h]⟩
  · exact .inr (by simp [presentGroup, h])

/-! ### Frames made by MKFRAME, and the raw reading -/

/-- DECODE of a made frame looks up the four entries it was made with (R51). -/
theorem decodeFrame_mkFrame (tab : SegTab) (d : FrameSpec) :
    decodeFrame tab (mkFrame tab d) =
      .ok (assemble (mkFrame tab d) (tubeAt d.th).value (tubeAt d.hu).value (tubeAt d.te).value (tubeAt d.on).value) := by
  apply decodeFrame_of_entries <;> simp [mkFrame]

theorem assembleNumber_mkFrame (tab : SegTab) (d : FrameSpec) (th hu te on : F64) :
    assembleNumber (mkFrame tab d) th hu te on =
      multiplierScale (frameFlags (mkFrame tab d)) (decimalScale d.p d.q d.w (applySign d.s (rawReading th hu te on))) := by
  simp [assembleNumber, Frame.negative, Frame.decimalHundred, Frame.decimalTen, Frame.decimalOne, mkFrame]

theorem glyphValue_of_digit {g : Glyph} {n : Nat} (h : glyphDigit? g = some n) : glyphValue g = F64.ofNat n ∧ n ≤ 9 := by
  cases g with
  | digit d =>
    cases h
    exact ⟨rfl, Nat.le_of_lt_succ d.isLt⟩
  | blank =>
    cases h
    exact ⟨rfl, by decide⟩
  | overload => cases h

/-- The raw reading of four digits or blanks is an integer of at most four digits, exactly (R94). -/
theorem rawReading_of_digits {th hu te on : Glyph} {n : Nat} (h : displayInteger? th hu te on = some n) :
    rawReading (glyphValue th) (glyphValue hu) (glyphValue te) (glyphValue on) = F64.ofNat n ∧ n ≤ 9999 := by
  unfold displayInteger? at h
  split at h
  · rename_i a b c d h1 h2 h3 h4
    obtain ⟨e1, l1⟩ := glyphValue_of_digit h1
    obtain ⟨e2, l2⟩ := glyphValue_of_digit h2
    obtain ⟨e3, l3⟩ := glyphValue_of_digit h3
    obtain ⟨e4, l4⟩ := glyphValue_of_digit h4
    have hn : n = a * 1000 + b * 100 + c * 10 + d := by
      simp only [Option.some.injEq] at h
      omega
    rw [rawReading, e1, e2, e3, e4, F64.fmul_ofNat (by omega) (by omega), F64.fmul_ofNat (by omega) (by omega),
      F64.fmul_ofNat (by omega) (by omega), F64.fadd_ofNat (by omega) (by omega), F64.fadd_ofNat (by omega) (by omega),
      F64.fadd_ofNat (by omega) (by omega), hn]
    exact ⟨rfl, by omega⟩
  · cases h

end Sys2Proof.Machine
end

