-- ==== Sys2Proof/Laws/Encode.lean ====
section
/-! SUPPORT. The decoder and the encoder, one lemma per interface. -/
namespace Sys2Proof

@[simp] theorem decode_reset (tab : SegTab) : decode tab ⟨.reset, []⟩ = .ok .reset := rfl

@[simp] theorem decode_burst (tab : SegTab) (newBytes : List Byte) :
    decode tab ⟨.burst, newBytes⟩ = .ok (decodeBurst newBytes) := rfl

@[simp] theorem decode_frame (tab : SegTab) (f : Frame) : decode tab ⟨.frame, f.toList⟩ = .ok (.decode f) := rfl

@[simp] theorem decode_group (tab : SegTab) (msb lsb : Byte) :
    decode tab ⟨.group, [msb, lsb]⟩ = .ok (decodePair tab msb lsb) := rfl

theorem decodeBurst_of_not_sync {newBytes : List Byte} (h : isSyncBurst newBytes = false) :
    decodeBurst newBytes = .push newBytes := by
  match newBytes, h with
  | [], _ => rfl
  | [b], h => simp [decodeBurst, show isSync b = false from h]
  | _ :: _ :: _, _ => rfl

theorem decodeBurst_of_sync {b : Byte} (h : isSync b = true) : decodeBurst [b] = .sync (lowNibble b) := by
  simp [decodeBurst, h]

theorem decodePair_of_entry {tab : SegTab} {msb lsb : Byte} {k : Fin 12} (h : Machine.entry tab k = segCode msb lsb) :
    decodePair tab msb lsb = segtabInstr k (groupPad msb lsb) := by
  simp [decodePair, Machine.lookup_eq_some_iff.mpr h]

theorem decodePair_of_illegal {tab : SegTab} {msb lsb : Byte} (h : ∀ k, Machine.entry tab k ≠ segCode msb lsb) :
    decodePair tab msb lsb = .illegalSegcode msb lsb := by
  simp [decodePair, Machine.lookup_eq_none_iff.mpr h]

theorem encode_segtabInstr (tab : SegTab) (k : Fin 12) (pad : GroupPad) :
    encode tab (segtabInstr k pad) = encodeEntry tab k pad := by
  revert k
  simp [segtabInstr, encode, Fin.forall_fin_succ]

end Sys2Proof
end

