-- ==== Sys2Proof/Laws/Framer.lean ====
section
/-! SUPPORT. The Framer: what GROUPS, the noise discard, the slices and a whole PUSH do. -/
namespace Sys2Proof.Machine

/-! ### Sync bytes in sequences -/

@[simp] theorem noSync_nil : noSync [] = true := rfl

@[simp] theorem noSync_cons (b : Byte) (bs : List Byte) : noSync (b :: bs) = (!isSync b && noSync bs) := by
  simp [noSync]

@[simp] theorem noSync_append (a b : List Byte) : noSync (a ++ b) = (noSync a && noSync b) := by
  simp [noSync]

@[simp] theorem isAlignedGroup_nil : isAlignedGroup [] = false := rfl

@[simp] theorem isAlignedGroup_cons (b : Byte) (bs : List Byte) :
    isAlignedGroup (b :: bs) = (isSync b && noSync bs) := rfl

theorem isAlignedGroup_append {a b : List Byte} (h : isAlignedGroup a = true) :
    isAlignedGroup (a ++ b) = noSync b := by
  cases a with
  | nil => simp at h
  | cons x xs =>
    simp only [isAlignedGroup_cons, Bool.and_eq_true] at h
    simp [h.1, h.2]

theorem ne_nil_of_isAlignedGroup {g : List Byte} (h : isAlignedGroup g = true) : g ≠ [] := by
  rintro rfl
  simp at h

/-! ### GROUPS (R62) -/

@[simp] theorem groups_nil : groups [] = [] := rfl

@[simp] theorem groups_singleton (b : Byte) : groups [b] = [[b]] := rfl

theorem groups_ne_nil : ∀ {all : List Byte}, all ≠ [] → groups all ≠ []
  | [], h => absurd rfl h
  | b :: rest, _ => by
    cases hb : atBoundary rest with
    | true => simp [groups, hb]
    | false => cases hg : groups rest <;> simp [groups, hb, hg, joinFirst]

theorem groups_cons_sync (b : Byte) {c : Byte} (rest : List Byte) (h : isSync c = true) :
    groups (b :: c :: rest) = [b] :: groups (c :: rest) := by
  rw [groups, atBoundary, if_pos h]

theorem groups_cons_other (b : Byte) {c : Byte} {rest g : List Byte} {gs : List (List Byte)} (h : isSync c = false)
    (hg : groups (c :: rest) = g :: gs) : groups (b :: c :: rest) = (b :: g) :: gs := by
  rw [groups, atBoundary, if_neg (by simp [h]), hg, joinFirst]

/-- Before a sync byte, and at the end, a sequence is grouped on its own. -/
theorem groups_append : ∀ {a b : List Byte}, a ≠ [] → (∀ c ∈ b.head?, isSync c = true) →
    groups (a ++ b) = groups a ++ groups b
  | [], _, h, _ => absurd rfl h
  | [x], [], _, _ => rfl
  | [x], c :: rest, _, hc => by
    have : isSync c = true := hc c (by simp)
    simpa using groups_cons_sync x rest this
  | x :: y :: ys, b, _, hc => by
    have ih := groups_append (a := y :: ys) (b := b) (by simp) hc
    cases hg : groups (y :: ys) with
    | nil => exact absurd hg (groups_ne_nil (by simp))
    | cons g gs =>
      rw [hg] at ih
      cases hy : isSync y with
      | true =>
        rw [groups_cons_sync x ys hy, hg]
        have := groups_cons_sync x (ys ++ b) hy
        rw [List.cons_append] at ih
        rw [List.cons_append, List.cons_append, this, ih]
        rfl
      | false =>
        rw [groups_cons_other x hy hg]
        simpa using groups_cons_other x (rest := ys ++ b) hy ih

/-- A byte and non-sync bytes after it are one group. -/
theorem groups_of_noSync (b : Byte) : ∀ {rest : List Byte}, noSync rest = true → groups (b :: rest) = [b :: rest]
  | [], _ => rfl
  | c :: rest, h => by
    simp only [noSync_cons, Bool.and_eq_true, Bool.not_eq_true'] at h
    exact groups_cons_other b h.1 (groups_of_noSync c h.2)

theorem groups_of_isAlignedGroup {g : List Byte} (h : isAlignedGroup g = true) : groups g = [g] := by
  cases g with
  | nil => simp at h
  | cons b rest =>
    simp only [isAlignedGroup_cons, Bool.and_eq_true] at h
    exact groups_of_noSync b h.2

theorem head?_flatten_of_aligned {gs : List (List Byte)} (h : ∀ g ∈ gs, isAlignedGroup g = true) :
    ∀ c ∈ gs.flatten.head?, isSync c = true := by
  cases gs with
  | nil => simp
  | cons g gs =>
    have hg := h g (by simp)
    cases g with
    | nil => simp at hg
    | cons b rest =>
      simp only [isAlignedGroup_cons, Bool.and_eq_true] at hg
      simp [hg.1]

/-- Aligned groups laid end to end are grouped as they were. -/
theorem groups_flatten_of_aligned : ∀ {gs : List (List Byte)}, (∀ g ∈ gs, isAlignedGroup g = true) →
    groups gs.flatten = gs
  | [], _ => rfl
  | g :: gs, h => by
    have hg := h g (by simp)
    have hgs : ∀ x ∈ gs, isAlignedGroup x = true := fun x hx => h x (by simp [hx])
    rw [List.flatten_cons, groups_append (ne_nil_of_isAlignedGroup hg) (head?_flatten_of_aligned hgs),
      groups_of_isAlignedGroup hg, groups_flatten_of_aligned hgs]
    rfl

/-- Bytes that hold no sync byte, before aligned groups, are the first group. -/
theorem groups_noise_append {n : List Byte} {gs : List (List Byte)} (hne : n ≠ []) (hn : noSync n.tail = true)
    (h : ∀ g ∈ gs, isAlignedGroup g = true) : groups (n ++ gs.flatten) = n :: gs := by
  rw [groups_append hne (head?_flatten_of_aligned h), groups_flatten_of_aligned h]
  cases n with
  | nil => exact absurd rfl hne
  | cons b rest =>
    have hb := groups_of_noSync b (rest := rest) hn
    rw [hb]
    rfl

/-- GROUPS as R62 describes it. -/
theorem groups_spec : ∀ (all : List Byte), (groups all).flatten = all ∧ (∀ g ∈ groups all, g ≠ []) ∧
    (∀ g ∈ groups all, noSync g.tail = true) ∧ (∀ g ∈ (groups all).tail, isAlignedGroup g = true) ∧
    (∀ b ∈ all.head?, isSync b = true → ∀ g ∈ groups all, isAlignedGroup g = true)
  | [] => by simp
  | [b] => by simp
  | b :: c :: rest => by
    obtain ⟨hf, hne, hin, hh, ha⟩ := groups_spec (c :: rest)
    cases hg : groups (c :: rest) with
    | nil => exact absurd hg (groups_ne_nil (by simp))
    | cons g gs =>
      cases hc : isSync c with
      | true =>
        have ha' := ha c (by simp) hc
        rw [groups_cons_sync b rest hc]
        refine ⟨by simp [hf], ?_, ?_, ?_, ?_⟩
        · intro x hx
          rcases List.mem_cons.mp hx with rfl | hx
          · simp
          · exact hne x hx
        · intro x hx
          rcases List.mem_cons.mp hx with rfl | hx
          · rfl
          · exact hin x hx
        · exact ha'
        · intro b' hb' hs x hx
          simp only [List.head?_cons, Option.mem_def, Option.some.injEq] at hb'
          subst hb'
          rcases List.mem_cons.mp hx with rfl | hx
          · simp [hs]
          · exact ha' x hx
      | false =>
        rw [hg] at hf hne hin hh
        rw [groups_cons_other b hc hg]
        have hgne : g ≠ [] := hne g (by simp)
        have hgtail : noSync g.tail = true := hin g (by simp)
        have hghead : g = c :: g.tail := by
          cases g with
          | nil => exact absurd rfl hgne
          | cons y ys =>
            have : y = c := by simpa using congrArg List.head? hf
            simp [this]
        have hgns : noSync g = true := by
          rw [hghead, noSync_cons, hc, hgtail]
          rfl
        refine ⟨by simpa using hf, ?_, ?_, hh, ?_⟩
        · intro x hx
          rcases List.mem_cons.mp hx with rfl | hx
          · simp
          · exact hne x (by simp [hx])
        · intro x hx
          rcases List.mem_cons.mp hx with rfl | hx
          · exact hgns
          · exact hin x (by simp [hx])
        · intro b' hb' hs x hx
          simp only [List.head?_cons, Option.mem_def, Option.some.injEq] at hb'
          subst hb'
          rcases List.mem_cons.mp hx with rfl | hx
          · simp [hs, hgns]
          · exact hh x hx

theorem flatten_groups (all : List Byte) : (groups all).flatten = all := (groups_spec all).1

/-! ### The noise discard (R63) -/

@[simp] theorem dropNoise_nil : dropNoise [] = [] := rfl

theorem dropNoise_of_aligned {gs : List (List Byte)} (h : ∀ g ∈ gs, isAlignedGroup g = true) : dropNoise gs = gs := by
  cases gs with
  | nil => rfl
  | cons g gs =>
    have hg := h g (by simp)
    cases g with
    | nil => simp at hg
    | cons b rest =>
      simp only [isAlignedGroup_cons, Bool.and_eq_true] at hg
      simp [dropNoise, hg.1]

theorem dropNoise_of_noise {n : List Byte} (gs : List (List Byte)) (hne : n ≠ []) (hn : ∀ b ∈ n.head?, isSync b = false) :
    dropNoise (n :: gs) = gs := by
  cases n with
  | nil => exact absurd rfl hne
  | cons b rest => simp [dropNoise, hn b (by simp)]

/-- Everything the noise discard can do to the groups of a sequence: it drops nothing, or one first group that does not
begin with a sync byte; every group that stays is aligned. -/
theorem dropNoise_groups_cases (all : List Byte) :
    ∃ noise, groups all = noise ++ dropNoise (groups all) ∧
      (∀ g ∈ dropNoise (groups all), isAlignedGroup g = true) ∧
      (noise = [] ∨ ∃ n, noise = [n] ∧ n ≠ [] ∧ noSync n = true) := by
  obtain ⟨hf, hne, hin, hh, ha⟩ := groups_spec all
  cases all with
  | nil => exact ⟨[], by simp⟩
  | cons b rest =>
    cases hg : groups (b :: rest) with
    | nil => exact absurd hg (groups_ne_nil (by simp))
    | cons g gs =>
      rw [hg] at hf hne hin hh
      have hgb : g.head? = some b := by
        cases g with
        | nil => exact absurd rfl (hne [] (by simp))
        | cons y ys => simpa using congrArg List.head? hf
      cases hb : isSync b with
      | true =>
        have ha' := ha b (by simp) hb
        rw [hg] at ha'
        rw [dropNoise_of_aligned ha']
        exact ⟨[], rfl, ha', .inl rfl⟩
      | false =>
        have hgne := hne g (by simp)
        have hns : noSync g = true := by
          cases g with
          | nil => exact absurd rfl hgne
          | cons y ys =>
            have : y = b := by simpa using hgb
            simpa [this, hb] using hin (y :: ys) (by simp)
        rw [dropNoise_of_noise gs hgne (by rw [hgb]; simpa using hb)]
        exact ⟨[g], rfl, hh, .inr ⟨g, rfl, hgne, hns⟩⟩

/-! ### Slices (R64) -/

@[simp] theorem chop_nil : chop [] = [] := rfl

@[simp] theorem chop_toList_append (f : Frame) (rest : List Byte) : chop (f.toList ++ rest) = f :: chop rest := rfl

@[simp] theorem chop_toList (f : Frame) : chop f.toList = [f] := rfl

/-- A group of at least 14 bytes begins with a frame. -/
theorem exists_frame_append {g : List Byte} (h : 14 ≤ g.length) : ∃ (f : Frame) (rest : List Byte), g = f.toList ++ rest := by
  obtain ⟨f, hf⟩ := Frame.exists_of_length (bytes := g.take 14) (by simp [h])
  exact ⟨f, g.drop 14, by rw [hf, List.take_append_drop]⟩

/-- The slices of a group of whole frames are the group, cut. -/
theorem exists_frames {g : List Byte} : ∀ {q : Nat}, g.length = 14 * q →
    ∃ fs : List Frame, chop g = fs ∧ fs.flatMap Frame.toList = g ∧ fs.length = q
  | 0, h => by
    have : g = [] := List.length_eq_zero_iff.mp (by omega)
    exact ⟨[], by simp [this]⟩
  | q + 1, h => by
    obtain ⟨f, rest, rfl⟩ := exists_frame_append (g := g) (by omega)
    obtain ⟨fs, hc, hf, hl⟩ := exists_frames (g := rest) (q := q) (by simp at h; omega)
    exact ⟨f :: fs, by simp [hc], by simp [hf], by simp [hl]⟩

theorem flatMap_chop {g : List Byte} (h : g.length % 14 = 0) : (chop g).flatMap Frame.toList = g := by
  obtain ⟨fs, hc, hf, -⟩ := exists_frames (g := g) (q := g.length / 14) (by omega)
  rw [hc, hf]

theorem chop_flatMap (fs : List Frame) : chop (fs.flatMap Frame.toList) = fs := by
  induction fs with
  | nil => rfl
  | cons f fs ih => rw [List.flatMap_cons, chop_toList_append, ih]

/-- Frames are determined by their bytes laid end to end. -/
theorem frames_eq_of_flatMap {fs gs : List Frame} (h : fs.flatMap Frame.toList = gs.flatMap Frame.toList) : fs = gs := by
  rw [← chop_flatMap fs, h, chop_flatMap]

theorem frameTailOk_of_noSync {f : Frame} (h : noSync f.toList = true) : frameTailOk f = true := by
  have : f.toList = f.b0 :: f.toList.tail := rfl
  rw [this, noSync_cons, Bool.and_eq_true] at h
  exact h.2

/-- Slices of bytes without a sync byte hold none. -/
theorem noSync_of_mem_chop {q : Nat} : ∀ {g : List Byte}, g.length = 14 * q → noSync g = true → ∀ f ∈ chop g,
    noSync f.toList = true := by
  induction q with
  | zero =>
    intro g hl _ f hf
    have : g = [] := List.length_eq_zero_iff.mp (by omega)
    simp [this] at hf
  | succ q ih =>
    intro g hl hn f hf
    obtain ⟨f0, rest, rfl⟩ := exists_frame_append (g := g) (by omega)
    simp only [noSync_append, Bool.and_eq_true] at hn
    rw [chop_toList_append, List.mem_cons] at hf
    rcases hf with rfl | hf
    · exact hn.1
    · exact ih (by simp at hl; omega) hn.2 f hf

/-- The slices of an aligned group (R69): bytes 1 to 13 of each are no sync bytes. -/
theorem frameTailOk_of_mem_chop {g : List Byte} (hg : isAlignedGroup g = true) (hl : g.length % 14 = 0) :
    ∀ f ∈ chop g, frameTailOk f = true := by
  have hpos : 14 ≤ g.length := by
    have := List.length_pos_iff.mpr (ne_nil_of_isAlignedGroup hg)
    omega
  obtain ⟨f0, rest, rfl⟩ := exists_frame_append hpos
  have hc : f0.toList = f0.b0 :: f0.toList.tail := rfl
  rw [hc, List.cons_append, isAlignedGroup_cons, Bool.and_eq_true, noSync_append, Bool.and_eq_true] at hg
  intro f hf
  rw [chop_toList_append, List.mem_cons] at hf
  rcases hf with rfl | hf
  · exact hg.2.1
  · exact frameTailOk_of_noSync (noSync_of_mem_chop (q := rest.length / 14) (by simp at hl; omega) hg.2.2 f hf)

/-! ### Steps 4 and 5 (R64 to R66) -/

@[simp] theorem emitGroups_nil : emitGroups [] = ([], []) := rfl

theorem emitGroups_whole {g : List Byte} (gs : List (List Byte)) (h : g.length % 14 = 0) :
    emitGroups (g :: gs) = (chop g ++ (emitGroups gs).1, (emitGroups gs).2) := by
  simp [emitGroups, h]

theorem emitGroups_kept {g : List Byte} (gs : List (List Byte)) (h : g.length % 14 ≠ 0) :
    emitGroups (g :: gs) = ([], g) := by
  simp [emitGroups, h]

theorem emitGroups_append {whole : List (List Byte)} (h : ∀ g ∈ whole, g.length % 14 = 0) (gs : List (List Byte)) :
    emitGroups (whole ++ gs) = (whole.flatMap chop ++ (emitGroups gs).1, (emitGroups gs).2) := by
  induction whole with
  | nil => simp
  | cons g whole ih =>
    rw [List.cons_append, emitGroups_whole _ (h g (by simp)), ih fun x hx => h x (by simp [hx])]
    simp

/-- Everything steps 4 and 5 can do to a list of groups. -/
theorem emitGroups_cases : ∀ (gs : List (List Byte)),
    ((∀ g ∈ gs, g.length % 14 = 0) ∧ emitGroups gs = (gs.flatMap chop, [])) ∨
      (∃ whole kept dropped, gs = whole ++ kept :: dropped ∧ (∀ g ∈ whole, g.length % 14 = 0) ∧ kept.length % 14 ≠ 0 ∧
        emitGroups gs = (whole.flatMap chop, kept))
  | [] => .inl (by simp)
  | g :: gs => by
    by_cases h : g.length % 14 = 0
    · rw [emitGroups_whole gs h]
      rcases emitGroups_cases gs with ⟨hw, he⟩ | ⟨whole, kept, dropped, rfl, hw, hk, he⟩
      · exact .inl ⟨by simpa [h] using hw, by simp [he]⟩
      · exact .inr ⟨g :: whole, kept, dropped, rfl, by simpa [h] using hw, hk, by simp [he]⟩
    · exact .inr ⟨[], g, gs, rfl, by simp, h, by simp [emitGroups_kept gs h]⟩

theorem flatMap_flatMap_chop {whole : List (List Byte)} (h : ∀ g ∈ whole, g.length % 14 = 0) :
    (whole.flatMap chop).flatMap Frame.toList = whole.flatten := by
  induction whole with
  | nil => rfl
  | cons g whole ih =>
    rw [List.flatMap_cons, List.flatMap_append, flatMap_chop (h g (by simp)), ih fun x hx => h x (by simp [hx])]
    rfl

/-! ### PUSH (R60) -/

/-- Everything a PUSH can do. The bytes are noise (nothing, or one group without a sync byte), whole groups and, if a group
is kept, that group and what is dropped, which begins with a sync byte; the whole groups are emitted and the kept group is the
new `carry`. -/
theorem push_cases (carry newBytes : List Byte) :
    ∃ (noise : List Byte) (whole : List (List Byte)) (kept dropped : List Byte), carry ++ newBytes = noise ++ whole.flatten ++ kept ++ dropped ∧
      noSync noise = true ∧ (∀ g ∈ whole, isAlignedGroup g = true ∧ g.length % 14 = 0) ∧
      (kept = [] ∧ dropped = [] ∨
        isAlignedGroup kept = true ∧ kept.length % 14 ≠ 0 ∧ ∀ c ∈ dropped.head?, isSync c = true) ∧
      push carry newBytes = (whole.flatMap chop, kept) := by
  obtain ⟨noise, hsplit, hal, hnoise⟩ := dropNoise_groups_cases (carry ++ newBytes)
  have hflat : noise.flatten ++ (dropNoise (groups (carry ++ newBytes))).flatten = carry ++ newBytes := by
    rw [← List.flatten_append, ← hsplit, flatten_groups]
  have hns : noSync noise.flatten = true := by
    rcases hnoise with rfl | ⟨n, rfl, -, hn⟩ <;> simp [*]
  rcases emitGroups_cases (dropNoise (groups (carry ++ newBytes))) with ⟨hw, he⟩ | ⟨whole, kept, dropped, hd, hw, hk, he⟩
  · refine ⟨noise.flatten, _, [], [], ?_, hns, fun g hg => ⟨hal g hg, hw g hg⟩, .inl ⟨rfl, rfl⟩, he⟩
    simpa using hflat.symm
  · rw [hd] at hal hflat
    refine ⟨noise.flatten, whole, kept, dropped.flatten, ?_, hns, fun g hg => ⟨hal g (by simp [hg]), hw g hg⟩,
      .inr ⟨hal kept (by simp), hk, head?_flatten_of_aligned fun g hg => hal g (by simp [hg])⟩, he⟩
    simpa using hflat.symm

/-- A PUSH whose bytes are noise and whole groups. -/
theorem push_of_whole {carry newBytes noise : List Byte} {whole : List (List Byte)} (hn : noSync noise = true)
    (hw : ∀ g ∈ whole, isAlignedGroup g = true ∧ g.length % 14 = 0) (h : carry ++ newBytes = noise ++ whole.flatten) :
    push carry newBytes = (whole.flatMap chop, []) := by
  have hal : ∀ g ∈ whole, isAlignedGroup g = true := fun g hg => (hw g hg).1
  have hd : dropNoise (groups (carry ++ newBytes)) = whole := by
    rw [h]
    cases noise with
    | nil => rw [List.nil_append, groups_flatten_of_aligned hal, dropNoise_of_aligned hal]
    | cons b rest =>
      simp only [noSync_cons, Bool.and_eq_true, Bool.not_eq_true'] at hn
      rw [groups_noise_append (by simp) (by simpa using hn.2) hal, dropNoise_of_noise _ (by simp) (by simpa using hn.1)]
  have he := emitGroups_append (whole := whole) (fun g hg => (hw g hg).2) []
  rw [push, hd]
  simpa using he

/-- A PUSH whose bytes are noise, whole groups, a group that is kept, and aligned groups after it. -/
theorem push_of_kept {carry newBytes noise kept : List Byte} {whole dropped : List (List Byte)} (hn : noSync noise = true)
    (hw : ∀ g ∈ whole, isAlignedGroup g = true ∧ g.length % 14 = 0) (hk : isAlignedGroup kept = true)
    (hl : kept.length % 14 ≠ 0) (hd : ∀ g ∈ dropped, isAlignedGroup g = true)
    (h : carry ++ newBytes = noise ++ whole.flatten ++ kept ++ dropped.flatten) :
    push carry newBytes = (whole.flatMap chop, kept) := by
  have hal : ∀ g ∈ whole ++ kept :: dropped, isAlignedGroup g = true := by
    intro g hg
    rcases List.mem_append.mp hg with hg | hg
    · exact (hw g hg).1
    · rcases List.mem_cons.mp hg with rfl | hg
      · exact hk
      · exact hd g hg
  have h2 : carry ++ newBytes = noise ++ (whole ++ kept :: dropped).flatten := by rw [h]; simp
  have hdn : dropNoise (groups (carry ++ newBytes)) = whole ++ kept :: dropped := by
    rw [h2]
    cases noise with
    | nil => rw [List.nil_append, groups_flatten_of_aligned hal, dropNoise_of_aligned hal]
    | cons b rest =>
      simp only [noSync_cons, Bool.and_eq_true, Bool.not_eq_true'] at hn
      rw [groups_noise_append (by simp) (by simpa using hn.2) hal, dropNoise_of_noise _ (by simp) (by simpa using hn.1)]
  rw [push, hdn, emitGroups_append fun g hg => (hw g hg).2, emitGroups_kept _ hl]
  simp

@[simp] theorem push_nil_nil : push [] [] = ([], []) := rfl

theorem carryOk_cases {carry : List Byte} (h : carryOk carry = true) :
    carry = [] ∨ (isAlignedGroup carry = true ∧ carry.length % 14 ≠ 0) := by
  simpa [carryOk] using h

/-- The new `carry` of every PUSH is as R11 says. -/
theorem carryOk_push (carry newBytes : List Byte) : carryOk (push carry newBytes).2 = true := by
  obtain ⟨_, _, kept, _, -, -, -, hk, he⟩ := push_cases carry newBytes
  rw [he]
  rcases hk with ⟨rfl, -⟩ | ⟨ha, hl, -⟩
  · rfl
  · simp [carryOk, ha, hl]

/-- Every frame a PUSH emits is as R69 says. -/
theorem frameTailOk_push {carry newBytes : List Byte} : ∀ f ∈ (push carry newBytes).1, frameTailOk f = true := by
  obtain ⟨_, whole, _, _, -, -, hw, -, he⟩ := push_cases carry newBytes
  rw [he]
  intro f hf
  obtain ⟨g, hg, hfg⟩ := List.mem_flatMap.mp hf
  exact frameTailOk_of_mem_chop (hw g hg).1 (hw g hg).2 f hfg

theorem pushBurst_of_fits {newBytes : List Byte} {s : State} (h : fits s.build (push s.carry newBytes).2 = true) :
    pushBurst newBytes s = .next (s.framed (push s.carry newBytes).2 (push s.carry newBytes).1) := by
  simp [pushBurst, h]

/-- Everything a PUSH can do to the state if it answers a next state. -/
theorem pushBurst_next {newBytes : List Byte} {s t : State} (h : pushBurst newBytes s = .next t) :
    fits s.build (push s.carry newBytes).2 = true ∧
      t = s.framed (push s.carry newBytes).2 (push s.carry newBytes).1 := by
  unfold pushBurst at h
  split at h
  · exact ⟨‹_›, by simpa using h.symm⟩
  · cases h

end Sys2Proof.Machine
end

