-- ==== Sys2Proof/Laws/PerInstr.lean ====
section
/-! SUPPORT. Statements about every instruction, made constructor by constructor. `EncodeFits`: the input that an instruction
encodes to carries the bytes its interface takes, so no encoding is rejected for its length. -/
namespace Sys2Proof.Laws.EncodeFits

/-- The number of bytes an interface takes: none on the reset input, 14 a frame (R37), two a digit group (R40), any number a
burst (R125). -/
def sized (x : Stimulus) : Bool :=
  match x.port with
  | .reset => x.bytes.length == 0
  | .burst => true
  | .frame => x.bytes.length == 14
  | .group => x.bytes.length == 2

def Statement (i : Instr) : Prop := ∀ tab : SegTab, sized (encode tab i) = true

theorem push (newBytes : List Byte) : Statement (.push newBytes) := fun _ => rfl

theorem reset : Statement .reset := fun _ => rfl

theorem decode (frame : Frame) : Statement (.decode frame) := fun _ => rfl

theorem sync (low : Nibble) : Statement (.sync low) := fun _ => rfl

theorem segtab0 (pad : GroupPad) : Statement (.segtab0 pad) := fun _ => rfl

theorem segtab1 (pad : GroupPad) : Statement (.segtab1 pad) := fun _ => rfl

theorem segtab2 (pad : GroupPad) : Statement (.segtab2 pad) := fun _ => rfl

theorem segtab3 (pad : GroupPad) : Statement (.segtab3 pad) := fun _ => rfl

theorem segtab4 (pad : GroupPad) : Statement (.segtab4 pad) := fun _ => rfl

theorem segtab5 (pad : GroupPad) : Statement (.segtab5 pad) := fun _ => rfl

theorem segtab6 (pad : GroupPad) : Statement (.segtab6 pad) := fun _ => rfl

theorem segtab7 (pad : GroupPad) : Statement (.segtab7 pad) := fun _ => rfl

theorem segtab8 (pad : GroupPad) : Statement (.segtab8 pad) := fun _ => rfl

theorem segtab9 (pad : GroupPad) : Statement (.segtab9 pad) := fun _ => rfl

theorem segtab10 (pad : GroupPad) : Statement (.segtab10 pad) := fun _ => rfl

theorem segtab11 (pad : GroupPad) : Statement (.segtab11 pad) := fun _ => rfl

theorem illegalSegcode (msb lsb : Byte) : Statement (.illegalSegcode msb lsb) := fun _ => rfl

end Sys2Proof.Laws.EncodeFits
end

