-- ==== Sys2Proof/Laws/Step.lean ====
section
/-! SUPPORT. Everything `exec` and `step` can do when they answer a next state, said once: every invariant of the machine is
proved from these two lemmas. -/
namespace Sys2Proof.Machine

/-- The four updates of the state: a PUSH that fits, a RESET, a result delivered, a lookup answered. -/
inductive Update (s : State) : State → Prop where
  | framed (newBytes : List Byte) (h : fits s.build (push s.carry newBytes).2 = true) :
      Update s (s.framed (push s.carry newBytes).2 (push s.carry newBytes).1)
  | cleared : Update s s.cleared
  | delivered (r : Result) : Update s (s.deliver r)
  | latched (t : Tube) : Update s (s.latch t)

theorem Update.of_pushBurst {newBytes : List Byte} {s t : State} (h : pushBurst newBytes s = .next t) : Update s t := by
  obtain ⟨hf, rfl⟩ := pushBurst_next h
  exact .framed newBytes hf

theorem Update.of_presentGroup {msb lsb : Byte} {s t : State} (h : presentGroup msb lsb s = .next t) : Update s t := by
  rcases presentGroup_cases msb lsb s with ⟨k, e⟩ | e
  · rw [e] at h
    cases h
    exact .latched _
  · rw [e] at h
    cases h
    exact .delivered _

/-- Everything an instruction can do if it answers a next state. -/
theorem exec_next {i : Instr} {s t : State} (h : exec i s = .next t) : Update s t := by
  cases i with
  | push newBytes => exact .of_pushBurst h
  | sync low => exact .of_pushBurst h
  | reset => cases h; exact .cleared
  | decode f => cases h; exact .delivered _
  | illegalSegcode msb lsb => exact .of_presentGroup h
  | _ => exact .of_presentGroup h

/-- The only instructions that can stop are PUSH and SYNC, and only with the fault of a full `carry`. -/
theorem exec_cases (i : Instr) (s : State) :
    (∃ t, exec i s = .next t) ∨
      (∃ newBytes, exec i s = pushBurst newBytes s ∧ exec i s = .fault .carryOverflow ∧
        fits s.build (push s.carry newBytes).2 = false) := by
  have hpush : ∀ newBytes, (∃ t, pushBurst newBytes s = .next t) ∨
      (∃ b, pushBurst newBytes s = pushBurst b s ∧ pushBurst newBytes s = .fault .carryOverflow ∧
        fits s.build (push s.carry b).2 = false) := by
    intro newBytes
    cases hf : fits s.build (push s.carry newBytes).2 with
    | true => exact .inl ⟨_, pushBurst_of_fits hf⟩
    | false => exact .inr ⟨newBytes, rfl, by simp [pushBurst, hf], hf⟩
  cases i with
  | push newBytes => exact hpush newBytes
  | sync low => exact hpush [syncByte low]
  | reset => exact .inl ⟨_, rfl⟩
  | decode f => exact .inl ⟨_, rfl⟩
  | _ => exact .inl ⟨_, rfl⟩

/-- What `step` does, by what `fetch` finds. -/
theorem step_of_fetch {s t : State} {x : Stimulus} {i : Instr} (h : fetch s = some (x, t))
    (hd : decode t.build.segtab x = .ok i) : step s = exec i t := by
  simp [step, h, hd]

theorem step_of_idle {s : State} (h : fetch s = none) : step s = .next s := by
  simp [step, h]

/-- Everything a step can do if it answers a next state. -/
theorem step_next {s t : State} (h : step s = .next t) :
    (fetch s = none ∧ t = s) ∨
      (∃ x u i, fetch s = some (x, u) ∧ decode u.build.segtab x = .ok i ∧ exec i u = .next t) := by
  cases hf : fetch s with
  | none =>
    rw [step_of_idle hf] at h
    cases h
    exact .inl ⟨rfl, rfl⟩
  | some p =>
    obtain ⟨x, u⟩ := p
    cases hd : decode u.build.segtab x with
    | error r => simp [step, hf, hd] at h
    | ok i =>
      rw [step_of_fetch hf hd] at h
      exact .inr ⟨x, u, i, rfl, hd, h⟩

end Sys2Proof.Machine
end

