-- ==== Sys2Proof/Laws/Ports.lean ====
section
/-! SUPPORT. The ports: what one edge samples, what an idle edge does, and runs of cycles. -/
namespace Sys2Proof.Machine

@[simp] theorem sample_rst (ready : Bool) (burst : List Byte) {p : PortIn} (h : p.rst = true) :
    sample ready burst p = ([], some ⟨.reset, []⟩) := by
  simp [sample, h]

/-- Without `in_ready` nothing is taken from the input pins. -/
@[simp] theorem sample_not_ready (burst : List Byte) {p : PortIn} (h : p.rst = false) :
    sample false burst p = (burst, none) := by
  simp [sample, h]

@[simp] theorem sample_idle (ready : Bool) (burst : List Byte) : sample ready burst idlePins = (burst, none) := by
  cases ready <;> rfl

@[simp] theorem sample_byte (burst : List Byte) (b : Byte) : sample true burst (bytePins b false) = (burst ++ [b], none) := rfl

@[simp] theorem sample_last_byte (burst : List Byte) (b : Byte) :
    sample true burst (bytePins b true) = ([], some ⟨.burst, burst ++ [b]⟩) := rfl

/-- Edges that sample nothing change nothing. -/
theorem sampleAll_replicate_wait (n : Nat) (burst : List Byte) (b : Byte) (last : Bool) (later : List Edge) :
    sampleAll burst (List.replicate n ⟨false, bytePins b last⟩ ++ later) = sampleAll burst later := by
  induction n with
  | zero => rfl
  | succ n ih => rw [List.replicate_succ, List.cons_append, sampleAll, sample_not_ready burst rfl, ih]; rfl

/-- A beat with a result waits for `out_ready`. -/
theorem takeBeat_waits {beats : List PortOut} (h : ∀ b ∈ beats, b.result ≠ none) : takeBeat false beats = beats := by
  cases beats with
  | nil => rfl
  | cons b bs =>
    have hb : b.result.isNone = false := by
      simpa [Option.isNone_eq_false_iff, Option.isSome_iff_ne_none] using h b (by simp)
    simp [takeBeat, hb]

/-- An idle edge changes nothing while the beats wait. -/
theorem Wires.edge_idle {w : Wires} (h : ∀ b ∈ w.beats, b.result ≠ none) : w.edge idlePins = w := by
  obtain ⟨block, burst, beats⟩ := w
  simp only [Wires.edge, sample_idle, Option.toList_none, List.append_nil]
  exact congrArg (Wires.mk block burst) (takeBeat_waits h)

theorem Wires.run_cons {w v : Wires} {c : Tick} (cs : List Tick) (h : w.clock c = .next v) : w.run (c :: cs) = v.run cs := by
  simp [Wires.run, h]

theorem Wires.run_append {w v : Wires} {cs : List Tick} (ds : List Tick) (h : w.run cs = .next v) :
    w.run (cs ++ ds) = v.run ds := by
  induction cs generalizing w with
  | nil =>
    cases h
    rfl
  | cons c cs ih =>
    cases hc : w.clock c with
    | next u =>
      rw [Wires.run_cons cs hc] at h
      rw [List.cons_append, Wires.run_cons _ hc, ih h]
    | fault r => simp [Wires.run, hc] at h
    | refused r => simp [Wires.run, hc] at h

/-- Idle cycles up to the block's next step are that step. -/
theorem Wires.run_idleTicks_cons {w v : Wires} (k : Nat) (waits : List Nat) (h : ∀ b ∈ w.beats, b.result ≠ none)
    (ha : w.advance = .next v) : w.run (idleTicks (k :: waits)) = v.run (idleTicks waits) := by
  rw [idleTicks, List.flatMap_cons, ← idleTicks]
  apply Wires.run_append
  induction k with
  | zero =>
    apply Wires.run_cons
    rw [Wires.clock, if_pos rfl, Wires.edge_idle h, ha]
  | succ k ih =>
    rw [List.replicate_succ, List.cons_append, Wires.run_cons _ (v := w) (by rw [Wires.clock, Wires.edge_idle h]; rfl)]
    exact ih

/-- Everything a step of the block behind its ports can do. -/
theorem Wires.advance_of_step {w : Wires} {t : State} (h : step w.block = .next t) :
    w.advance = .next { w with block := t, beats := w.beats ++ endBeats w.block t } := by
  simp [Wires.advance, h]

end Sys2Proof.Machine
end

