-- ==== Sys2Proof/Laws/Run.lean ====
section
/-! SUPPORT. Runs of several steps: the first step of a run, and a run continued. -/
namespace Sys2Proof.Machine

theorem run_next (M : Host.Core) (k : Nat) {s t : M.State} (h : M.step s = .next t) : M.run (k + 1) s = M.run k t := by
  simp [Host.Core.run, h]

theorem run_append (M : Host.Core) (j k : Nat) {s t : M.State} (h : M.run j s = .next t) : M.run (j + k) s = M.run k t := by
  induction j generalizing s with
  | zero =>
    simp only [Host.Core.run, Host.Outcome.next.injEq] at h
    rw [h, Nat.zero_add]
  | succ j ih =>
    rw [Nat.succ_add]
    cases hs : M.step s with
    | next u =>
      rw [run_next M _ hs] at h ⊢
      exact ih h
    | fault r => simp [Host.Core.run, hs] at h
    | refused r => simp [Host.Core.run, hs] at h

/-- A frame that waits is decoded by the next step. -/
theorem step_of_frame {s : State} {f : Frame} {fs : List Frame} (h : s.frames = f :: fs) :
    step s = exec (.decode f) { s with frames := fs } :=
  step_of_fetch (x := ⟨.frame, f.toList⟩) (by simp [fetch, h]) rfl

end Sys2Proof.Machine
end

