-- ==== Sys2Proof/Tests/Slice0.lean ====
section
/-! SUPPORT. The tests, and a witness for the hypotheses of every obligation that has some. Expected values come from the
spec: the encodings of 30_encoding.md, and the vectors of 95_test_vectors.md, named at each test. The table is `SEGTAB_GK` of
R48, an illustration that no meaning and no obligation uses. -/
namespace Sys2Proof.Tests
open Sys2Proof.Machine

/-- `SEGTAB_GK` (R48). -/
abbrev gk : SegTab := segtabGK

/-- A block with the table `gk`, the given `carry` and the given `CARRY_CAP`, and nothing under way. -/
def st (carry : List Byte) (cap : Option Nat) : State := ⟨⟨gk, cap⟩, carry, [], [], [], [], []⟩

/-- One step on `s` with `x` as its next input, seen through `view`; none if the step stops. -/
def stepView {α : Type} (view : State → α) (s : State) (port : Port) (bytes : List Byte) : Option α :=
  match step (s.present ⟨port, bytes⟩) with
  | .next t => some (view t)
  | .fault _ => none
  | .refused _ => none

/-- The Framer's side of a state: the emitted frames and `carry`. -/
def framer (t : State) : List (List Byte) × List Byte := (t.frames.map Frame.toList, t.carry)

/-- `number`, unit and flag word of a delivered Measurement. -/
def reading (t : State) : List (BitVec 64 × Option MeterUnit × BitVec 22) :=
  t.results.filterMap fun r =>
    match r with
    | .ok m => some (m.number.bits, m.unit, flagWord m.flags)
    | .err _ => none

/-- Frame A of the vectors: four digits 5. -/
def bytesA : List Byte := [0x10, 0x23, 0x3E, 0x43, 0x5E, 0x63, 0x7E, 0x83, 0x9E, 0xA0, 0xB0, 0xC0, 0xD0, 0xE0]

/-- Frame A as a frame. -/
def frameA : Frame := ⟨0x10, 0x23, 0x3E, 0x43, 0x5E, 0x63, 0x7E, 0x83, 0x9E, 0xA0, 0xB0, 0xC0, 0xD0, 0xE0⟩

/-- Frame E of the vectors: the thousands code `0x41` is not in the table. -/
def frameE : Frame := ⟨0x10, 0x24, 0x31, 0x45, 0x5B, 0x61, 0x7F, 0x82, 0x97, 0xA0, 0xB0, 0xC0, 0xD0, 0xE0⟩

/-! ### WellFormed refuses -/

theorem test_wellFormed_refuses_sync_burst_as_push : (Instr.push [0x1F]).wellFormed gk = false := by decide

theorem test_wellFormed_takes_two_sync_bytes_as_push : (Instr.push [0x1F, 0x10]).wellFormed gk = true := by decide

theorem test_wellFormed_refuses_legal_code_as_illegal : (Instr.illegalSegcode 0x27 0x3D).wellFormed gk = false := by decide

theorem test_wellFormed_takes_illegal_code : (Instr.illegalSegcode 0x24 0x31).wellFormed gk = true := by decide

/-! ### Decode: words written out from the encodings -/

/-- R36: `0001xxxx`, the first and the last sync byte. -/
theorem test_decode_sync :
    decode gk ⟨.burst, [0b00010000]⟩ = .ok (.sync 0b0000) ∧ decode gk ⟨.burst, [0b00011111]⟩ = .ok (.sync 0b1111) := by
  decide

/-- R60: a burst of any length, the empty one too. -/
theorem test_decode_push :
    decode gk ⟨.burst, []⟩ = .ok (.push []) ∧ decode gk ⟨.burst, [0b00000001]⟩ = .ok (.push [0b00000001]) ∧
      decode gk ⟨.burst, [0b00010000, 0b00010001]⟩ = .ok (.push [0b00010000, 0b00010001]) := by
  decide

theorem test_decode_reset :
    decode gk ⟨.reset, []⟩ = .ok .reset ∧ decode gk ⟨.reset, [0]⟩ = .error .resetWithBytes := by
  decide

/-- R38: byte 0 first. -/
theorem test_decode_frame : decode gk ⟨.frame, bytesA⟩ = .ok (.decode frameA) := by decide

theorem test_decode_refuses_other_lengths :
    decode gk ⟨.frame, bytesA.tail⟩ = .error .notFourteenBytes ∧
      decode gk ⟨.frame, 0 :: bytesA⟩ = .error .notFourteenBytes ∧ decode gk ⟨.group, [0x27]⟩ = .error .notOnePair := by
  decide

/-- R41, R48: digit groups written out from the columns `msb[2:0]` and `lsb[3:0]`; the point bit is `msb[3]`. -/
theorem test_decode_segtab_rows_0_to_5 :
    decode gk ⟨.group, [0b00100111, 0b00111101]⟩ = .ok (.segtab0 ⟨0b0010, false, 0b0011⟩) ∧
      decode gk ⟨.group, [0b01001000, 0b01010101]⟩ = .ok (.segtab1 ⟨0b0100, true, 0b0101⟩) ∧
      decode gk ⟨.group, [0b00000101, 0b11111011]⟩ = .ok (.segtab2 ⟨0b0000, false, 0b1111⟩) ∧
      decode gk ⟨.group, [0b01101001, 0b01111111]⟩ = .ok (.segtab3 ⟨0b0110, true, 0b0111⟩) ∧
      decode gk ⟨.group, [0b10000010, 0b10010111]⟩ = .ok (.segtab4 ⟨0b1000, false, 0b1001⟩) ∧
      decode gk ⟨.group, [0b00100011, 0b00111110]⟩ = .ok (.segtab5 ⟨0b0010, false, 0b0011⟩) := by
  decide

theorem test_decode_segtab_rows_6_to_11 :
    decode gk ⟨.group, [0b00100111, 0b00111110]⟩ = .ok (.segtab6 ⟨0b0010, false, 0b0011⟩) ∧
      decode gk ⟨.group, [0b01000001, 0b01010101]⟩ = .ok (.segtab7 ⟨0b0100, false, 0b0101⟩) ∧
      decode gk ⟨.group, [0b00001111, 0b11111111]⟩ = .ok (.segtab8 ⟨0b0000, true, 0b1111⟩) ∧
      decode gk ⟨.group, [0b01100011, 0b01111111]⟩ = .ok (.segtab9 ⟨0b0110, false, 0b0111⟩) ∧
      decode gk ⟨.group, [0b10000000, 0b10010000]⟩ = .ok (.segtab10 ⟨0b1000, false, 0b1001⟩) ∧
      decode gk ⟨.group, [0b00100110, 0b00111000]⟩ = .ok (.segtab11 ⟨0b0010, false, 0b0011⟩) := by
  decide

/-- R48: the column "binary (bit 6 first)", and the code `0x65` of its remark, which is in no entry. -/
theorem test_segtabGK_columns :
    segtabGK.codes = #v[0b1111101, 0b0000101, 0b1011011, 0b0011111, 0b0100111, 0b0111110, 0b1111110, 0b0010101, 0b1111111,
      0b0111111, 0b0000000, 0b1101000] ∧ lookup segtabGK 0x65 = none := by
  decide

/-- R49: code `0x41` is in no entry of R48. -/
theorem test_decode_illegal : decode gk ⟨.group, [0b00100100, 0b00110001]⟩ = .ok (.illegalSegcode 0x24 0x31) := by decide

/-! ### One step of each instruction -/

/-- FR-17. -/
theorem test_push_worked_example :
    stepView framer (st [] none) .burst
      [0xFF, 0x00, 0x10, 0x21, 0x32, 0x43, 0x54, 0x65, 0x76, 0x87, 0x98, 0xA9, 0xBA, 0xCB, 0xDC, 0xED, 0x1F, 0x20] =
    some ([[0x10, 0x21, 0x32, 0x43, 0x54, 0x65, 0x76, 0x87, 0x98, 0xA9, 0xBA, 0xCB, 0xDC, 0xED]], [0x1F, 0x20]) := by
  decide

/-- FR-16: noise, then a short group, then a whole frame. -/
theorem test_push_drops_frames_after_a_short_group :
    stepView framer (st [] none) .burst ([0x00, 0x01, 0x10, 0x23] ++ bytesA) = some ([], [0x10, 0x23]) := by
  decide

/-- FR-13: RESET in the middle of a frame. -/
theorem test_reset_empties_carry :
    stepView framer (st [0x10, 0x23, 0x3E, 0x43, 0x5E, 0x63] none) .reset [] = some ([], []) := by
  decide

/-- FR-2, k = 1, and FR-15. -/
theorem test_sync_kept_and_dropped :
    stepView framer (st [] none) .burst [0x10] = some ([], [0x10]) ∧
      stepView framer (st [0x10, 0x23, 0x3E] none) .burst [0x10] = some ([], [0x10, 0x23, 0x3E]) := by
  decide

/-- DE-3.1: sign and kilo on the reading 50. -/
theorem test_decode_sign_and_kilo :
    stepView reading (st [] none) .frame
      [0x10, 0x2F, 0x3D, 0x47, 0x5D, 0x63, 0x7E, 0x87, 0x9D, 0xA2, 0xB0, 0xC0, 0xD0, 0xE0] =
    some [(0xC0E86A0000000000, none, 0b1000000)] := by
  decide +kernel

/-- DE-9.2: the first failing group is reported, and the Framer is untouched. -/
theorem test_decode_first_failing_group :
    stepView (fun t => (t.results, t.carry)) (st [0x10] none) .frame
      [0x10, 0x20, 0x35, 0x44, 0x51, 0x61, 0x7F, 0x86, 0x96, 0xA0, 0xB0, 0xC0, 0xD0, 0xE0] =
    some ([.err (.unrecognizedSegmentPattern 0x41 0x44 0x51)], [0x10]) := by
  decide

/-- R47, R92: the twelve entries answer their glyph. -/
theorem test_segtab_rows_0_to_5 :
    stepView State.tubes (st [] none) .group [0x27, 0x3D] = some [⟨.digit 0, ⟨0⟩⟩] ∧
      stepView State.tubes (st [] none) .group [0x20, 0x35] = some [⟨.digit 1, ⟨0x3FF0000000000000⟩⟩] ∧
      stepView State.tubes (st [] none) .group [0x25, 0x3B] = some [⟨.digit 2, ⟨0x4000000000000000⟩⟩] ∧
      stepView State.tubes (st [] none) .group [0x21, 0x3F] = some [⟨.digit 3, ⟨0x4008000000000000⟩⟩] ∧
      stepView State.tubes (st [] none) .group [0x22, 0x37] = some [⟨.digit 4, ⟨0x4010000000000000⟩⟩] ∧
      stepView State.tubes (st [] none) .group [0x23, 0x3E] = some [⟨.digit 5, ⟨0x4014000000000000⟩⟩] := by
  decide

theorem test_segtab_rows_6_to_11 :
    stepView State.tubes (st [] none) .group [0x27, 0x3E] = some [⟨.digit 6, ⟨0x4018000000000000⟩⟩] ∧
      stepView State.tubes (st [] none) .group [0x21, 0x35] = some [⟨.digit 7, ⟨0x401C000000000000⟩⟩] ∧
      stepView State.tubes (st [] none) .group [0x27, 0x3F] = some [⟨.digit 8, ⟨0x4020000000000000⟩⟩] ∧
      stepView State.tubes (st [] none) .group [0x23, 0x3F] = some [⟨.digit 9, ⟨0x4022000000000000⟩⟩] ∧
      stepView State.tubes (st [] none) .group [0x20, 0x30] = some [⟨.blank, ⟨0⟩⟩] ∧
      stepView State.tubes (st [] none) .group [0x26, 0x38] = some [⟨.overload, ⟨0x7FF0000000000000⟩⟩] := by
  decide

/-- The payload of DE-9.3: both bytes unmasked. -/
theorem test_illegal_code_raises :
    stepView State.results (st [] none) .group [0x8C, 0x91] =
      some [.err (.unrecognizedSegmentPattern 0x41 0x8C 0x91)] := by
  decide

/-- FR-11 with `CARRY_CAP = some 13`: the model fault of R12. -/
theorem test_push_overflows_a_small_carry :
    step ((st [] (some 13)).present ⟨.burst, bytesA ++ [0, 0, 0, 0, 0, 0]⟩) = .fault .carryOverflow :=
  rfl

/-! ### The ports -/

/-- R126: with `in_ready` 0 a byte with `in_valid` is not taken; with 1 it is. -/
theorem test_byte_waits_for_ready :
    sample false [0x10] (bytePins 0x20 true) = ([0x10], none) ∧
      sample true [0x10] (bytePins 0x20 true) = ([], some ⟨.burst, [0x10, 0x20]⟩) := by
  decide

/-- R126: a burst that gives no frame is one pulse of `out_last` with `out_valid` 0. -/
theorem test_no_result_is_a_pulse :
    (match (Wires.mk (st [] none) [] []).run (sendTicks [0x10] ++ idleTicks [0]) with
      | .next w => some (w.outValid, w.outLast, w.inReady, w.block.carry)
      | .fault _ => none
      | .refused _ => none) = some (false, true, true, [0x10]) := by
  decide

/-! ### Witnesses: states and operands that meet the hypotheses of the obligations, clause by clause -/

theorem witness_DecodeInvertsEncode :
    (Instr.push []).wellFormed gk = true ∧ (Instr.push [0x0F]).wellFormed gk = true ∧
      (Instr.push [0x20]).wellFormed gk = true ∧ (Instr.illegalSegcode 0x24 0x31).wellFormed gk = true := by
  decide

theorem witness_EncodeInvertsDecode : decode gk ⟨.group, [0x24, 0x31]⟩ = .ok (.illegalSegcode 0x24 0x31) := by decide

theorem witness_FrameInterfaceTakesFourteenBytes :
    bytesA.length = 14 ∧ bytesA.tail.length ≠ 14 ∧ (0 :: bytesA).length ≠ 14 ∧ ([] : List Byte).length ≠ 14 := by
  decide

/-- The stream `FF` then frame A, and a stream that begins with a sync byte. -/
theorem witness_GroupsAreThePartition :
    IsGroups (0xFF :: bytesA) [[0xFF], bytesA] ∧ IsGroups [0x10, 0x11] [[0x10], [0x11]] :=
  ⟨⟨by decide, by decide, by decide, by decide⟩, ⟨by decide, by decide, by decide, by decide⟩⟩

/-- Noise and a whole group; no noise and no group. -/
theorem witness_PushEmitsWholeGroups :
    (isAlignedGroup [0xFF] = false ∧ (∀ g ∈ [bytesA], isAlignedGroup g = true ∧ g.length % 14 = 0) ∧
      IsGroups ((st [] none).carry ++ 0xFF :: bytesA) ([[0xFF]] ++ [bytesA])) ∧
      IsGroups ((st [] none).carry ++ []) ([] ++ []) :=
  ⟨⟨by decide, by decide, by decide, by decide, by decide, by decide⟩, ⟨by decide, by decide, by decide, by decide⟩⟩

/-- Groups of 14, 13, 15 and 14 bytes, and a `CARRY_CAP` of exactly 13. -/
theorem witness_PushKeepsTheFirstOtherGroup :
    (∀ g ∈ [bytesA], isAlignedGroup g = true ∧ g.length % 14 = 0) ∧ isAlignedGroup (bytesA.take 13) = true ∧
      (bytesA.take 13).length % 14 ≠ 0 ∧
      (∀ n, (st [] (some 13)).build.carryCap = some n → (bytesA.take 13).length ≤ n) ∧
      IsGroups ((st [] (some 13)).carry ++ (bytesA ++ bytesA.take 13 ++ (bytesA ++ [0]) ++ bytesA))
        ([] ++ [bytesA] ++ bytesA.take 13 :: [bytesA ++ [0], bytesA]) :=
  ⟨by decide, by decide, by decide, by intro n h; cases h; decide, by decide, by decide, by decide, by decide⟩

/-- A `CARRY_CAP` that the new `carry` just fits, one that it exceeds by one byte, and none. -/
theorem witness_PushCompletesOrOverflows :
    (∀ n, (st [] (some 1)).build.carryCap = some n → (push (st [] (some 1)).carry [syncByte 0]).2.length ≤ n) ∧
      ((st [] (some 0)).build.carryCap = some 0 ∧ 0 < (push (st [] (some 0)).carry [syncByte 0]).2.length) ∧
      (∀ n, (st [] none).build.carryCap = some n → (push (st [] none).carry bytesA).2.length ≤ n) :=
  ⟨by intro n h; cases h; decide, by decide, by intro n h; cases h⟩

theorem witness_SyncByteIsKeptOrDropped :
    ((st [] (some 1)).carry = [] ∧ ∀ n, (st [] (some 1)).build.carryCap = some n → 1 ≤ n) ∧
      ((st [0x10] (some 1)).carry ≠ [] ∧ carryOk (st [0x10] (some 1)).carry = true ∧
        fits (st [0x10] (some 1)).build (st [0x10] (some 1)).carry = true) :=
  ⟨⟨rfl, by intro n h; cases h; decide⟩, by decide⟩

/-- Also for CarryIsExtendedOrNew, OnlyTheFramerWritesCarry and BuildIsNeverWritten: a PUSH that answers a next state. -/
theorem witness_PushNeverReordersBytes :
    carryOk (st [0x10] none).carry = true ∧
      exec (.push bytesA.tail) (st [0x10] none) = .next { st [] none with frames := [frameA] } ∧
      [] ≠ (st [0x10] none).carry :=
  ⟨by decide, rfl, by decide⟩

theorem witness_EmptyBurstChangesNothing :
    (carryOk (st [] (some 0)).carry = true ∧ fits (st [] (some 0)).build (st [] (some 0)).carry = true) ∧
      (carryOk (st [0x1F] (some 1)).carry = true ∧ fits (st [0x1F] (some 1)).build (st [0x1F] (some 1)).carry = true) := by
  decide

/-- Nothing held; a held group completed to 14; a held group left at 13 that just fits. -/
theorem witness_BurstWithoutSyncByte :
    (carryOk [] = true ∧ noSync [0x0F, 0x20] = true) ∧
      (carryOk (bytesA.take 13) = true ∧ noSync [0xE0] = true ∧ (bytesA.take 13 ++ [0xE0]).length % 14 = 0) ∧
      (carryOk (bytesA.take 12) = true ∧ noSync [0xD0] = true ∧ (bytesA.take 12 ++ [0xD0]).length % 14 ≠ 0 ∧
        fits ⟨gk, some 13⟩ (bytesA.take 12 ++ [0xD0]) = true) := by
  decide

theorem witness_WedgedFramerDiscardsBursts :
    ([0x10, 0x23, 0x3E] : List Byte) ≠ [] ∧ carryOk [0x10, 0x23, 0x3E] = true ∧
      ∀ b ∈ [bytesA, bytesA], ∃ c rest, b = c :: rest ∧ isSync c = true := by
  refine ⟨by decide, by decide, ?_⟩
  intro b hb
  have h : b = bytesA := by simpa using hb
  exact ⟨0x10, bytesA.tail, h, by decide⟩

/-- FR-5. -/
theorem witness_BurstBoundariesAreObservable :
    isAlignedGroup (bytesA ++ (0xA0 :: bytesA.tail)) = true ∧ bytesA.length = 14 ∧ (0xA0 :: bytesA.tail).length = 14 := by
  decide

/-- Noise, two frames and 13 bytes of a third, cut inside the noise, inside a frame and inside the tail. -/
theorem witness_CleanStreamGivesItsFrames :
    isClean [0xFF, 0x00] [frameA, frameA] (bytesA.take 13) = true ∧
      [[0xFF], 0x00 :: bytesA.take 5, [], bytesA.drop 5 ++ bytesA ++ bytesA.take 12, [0xD0]].flatten =
        cleanStream [0xFF, 0x00] [frameA, frameA] (bytesA.take 13) := by
  decide

/-- The same stream as the environment's operations, with a `CARRY_CAP` of exactly 13. -/
theorem witness_CleanStreamRunDeliversItsResults :
    (isClean [] [frameA] (bytesA.take 13) = true ∧ [bytesA, bytesA.take 13].flatten = cleanStream [] [frameA] (bytesA.take 13)) ∧
      ((st [] (some 13)).carry = [] ∧ (st [] (some 13)).frames = []) ∧
      ({ st [] (some 13) with inputs := [⟨.burst, bytesA⟩, ⟨.burst, bytesA.take 13⟩] }).inputs =
        [bytesA, bytesA.take 13].map (fun b => ⟨.burst, b⟩) ++ [] ∧
      ∀ n, (st [] (some 13)).build.carryCap = some n → 13 ≤ n :=
  ⟨by decide, by decide, by decide, by intro n h; cases h; decide⟩

/-- For DecodeAssemblesTheNumber, DecodeCopiesTheFlagBits and DecodeResolvesTheUnit: a frame with the four codes in the
table, the last entry among them. -/
theorem witness_four_entries :
    entry gk 0 = segCode 0x2F 0x3D ∧ entry gk 10 = segCode 0x40 0x50 ∧ entry gk 11 = segCode 0x66 0x78 ∧
      entry gk 9 = segCode 0x83 0x9F := by
  decide

/-- Every flag that is only copied, and every unread bit of those bytes, set over frame A. -/
theorem witness_DecodeCopiesTheFlagBits :
    (0xF1 : Byte) &&& 0x0E = frameA.b9 &&& 0x0E ∧ (0xF5 : Byte) &&& 0x0A = frameA.b10 &&& 0x0A ∧
      (0xF3 : Byte) &&& 0x0C = frameA.b11 &&& 0x0C ∧ (0xF1 : Byte) &&& 0x0E = frameA.b12 &&& 0x0E ∧
      (0xF9 : Byte) &&& 0x06 = frameA.b13 &&& 0x06 := by
  decide

/-- A bad code in each of the four groups. -/
theorem witness_DecodeFailsOnAnIllegalCode :
    ∀ f ∈ [frameE, { frameA with b3 := 0x44, b4 := 0x51 }, { frameA with b5 := 0x64, b6 := 0x71 },
        { frameA with b7 := 0x84, b8 := 0x91 }],
      ∃ g ∈ [(f.b1, f.b2), (f.b3, f.b4), (f.b5, f.b6), (f.b7, f.b8)], ∀ k, entry gk k ≠ segCode g.1 g.2 := by
  decide +kernel

/-- The first group, and the last one after three good ones. -/
theorem witness_FirstFailingGroupIsReported :
    ([(frameE.b1, frameE.b2), (frameE.b3, frameE.b4), (frameE.b5, frameE.b6), (frameE.b7, frameE.b8)] =
        [] ++ (0x24, 0x31) :: [(0x45, 0x5B), (0x61, 0x7F), (0x82, 0x97)] ∧ ∀ k, entry gk k ≠ segCode 0x24 0x31) ∧
      ([(frameA.b1, frameA.b2), (frameA.b3, frameA.b4), (frameA.b5, frameA.b6), (0x8C, 0x91)] =
          [(0x23, 0x3E), (0x43, 0x5E), (0x63, 0x7E)] ++ (0x8C, 0x91) :: [] ∧
        (∀ g ∈ [((0x23 : Byte), (0x3E : Byte)), (0x43, 0x5E), (0x63, 0x7E)], ∃ k, entry gk k = segCode g.1 g.2) ∧
        ∀ k, entry gk k ≠ segCode 0x8C 0x91) := by
  refine ⟨⟨rfl, by decide⟩, rfl, fun g hg => ⟨5, ?_⟩, by decide⟩
  simp only [List.mem_cons, List.not_mem_nil, or_false] at hg
  rcases hg with rfl | rfl | rfl <;> decide

/-- All ignored bits of frame A set. -/
theorem witness_IgnoredBitsDoNotMatter :
    usedBits frameA =
      usedBits ⟨0xF0, 0xF3, 0xFE, 0xF3, 0xFE, 0xF3, 0xFE, 0xF3, 0xFE, 0xF0, 0xF0, 0xF0, 0xF1, 0xF9⟩ := by
  decide

/-- The displays 9999 and blank, blank, blank, 0; flag bits that are no multiplier are set. -/
theorem witness_IntegerReadingIsExact :
    displayInteger? (glyphAt 9) (glyphAt 9) (glyphAt 9) (glyphAt 9) = some 9999 ∧
      displayInteger? (glyphAt 10) (glyphAt 10) (glyphAt 10) (glyphAt 0) = some 0 ∧
      (0b0001#4).getLsbD 1 = false ∧ (0b0001#4).getLsbD 2 = false ∧ (0b0001#4).getLsbD 3 = false ∧
      (0b0101#4).getLsbD 1 = false ∧ (0b0101#4).getLsbD 3 = false ∧ (0b0010#4).getLsbD 2 = false := by
  decide

/-- The largest scaling down: sign, thousandths and nano. -/
theorem witness_NumberIsNearTheIdealValue :
    idealReading? gk (mkFrame gk ⟨9, 9, 9, 9, true, true, false, false, 0, 4, 0, 0, 0, 0⟩) = some ⟨true, 9999, 3, -9⟩ := by
  decide

theorem witness_OverloadReadsInfinity :
    glyphAt 11 = .overload ∧ glyphAt 10 ≠ .overload ∧ glyphAt 9 ≠ .overload := by
  decide

theorem witness_NumberIsNeverNaN :
    ∃ t m, exec (.decode frameA) (st [] none) = .next t ∧ t.results = (st [] none).results ++ [.ok m] :=
  ⟨_, assemble frameA (tubeAt 5).value (tubeAt 5).value (tubeAt 5).value (tubeAt 5).value, rfl, by decide⟩

theorem witness_ZeroReadingIsAZero :
    displayInteger? (glyphAt 0) (glyphAt 0) (glyphAt 0) (glyphAt 0) = some 0 ∧
      displayInteger? (glyphAt 10) (glyphAt 10) (glyphAt 10) (glyphAt 10) = some 0 := by
  decide

/-- Position by position: exchanged both ways, and left as it is. -/
theorem witness_BlankCountsAsZero :
    ((0 : Fin 12) ∈ [(0 : Fin 12), 10] ∧ (10 : Fin 12) ∈ [(0 : Fin 12), 10]) ∧ (11 : Fin 12) = 11 := by
  decide

theorem witness_IllegalCodeRaisesTheError :
    (∀ k, entry gk k ≠ segCode 0x24 0x31) ∧ entry gk 0 = segCode 0x27 0x3D ∧ entry gk 11 = segCode 0x26 0x38 := by
  decide

theorem witness_TransactionDecodesEveryFrame :
    (st [] (some 0)).frames = [] ∧
      ({ st [] (some 0) with inputs := [⟨.burst, bytesA⟩] }).inputs = ⟨.burst, bytesA⟩ :: [] ∧
      fits (st [] (some 0)).build (blockPush gk [] bytesA).2 = true := by
  decide

/-- One byte that does not wait, and two of which one waits. -/
theorem witness_PortsDeliverTheBurst :
    ([(0, 0x10)] : List (Nat × Byte)) ≠ [] ∧ ([(3, 0x10), (0, 0x20)] : List (Nat × Byte)) ≠ [] := by
  decide

/-- A block with an operation that has not run, one without, a result not taken and a pulse. -/
theorem witness_HandshakesGuardTheWires :
    ((Wires.mk ((st [] none).present ⟨.burst, [0x10]⟩) [] []).inReady = false ∧ idlePins.rst = false) ∧
      ({ idlePins with rst := true }).rst = true ∧ (st [] none).inputs = [] ∧
      ((⟨some (resultBus (.err (groupError 0x24 0x31))), true⟩ : PortOut).result ≠ none ∧ idlePins.outReady = false) ∧
      ({ idlePins with outReady := true }).outReady = true ∧ (⟨none, true⟩ : PortOut).result = none := by
  decide

/-- A burst that gives one frame, on a block with a result not taken; one that gives none, on a block that has no room. -/
theorem witness_BurstOnTheWiresGivesItsBeats :
    (bytesA ≠ [] ∧ (∀ b ∈ outBeats [.err (groupError 0x24 0x31)], b.result ≠ none) ∧
        fits (st [] (some 0)).build (push [] bytesA).2 = true ∧ [4, 0].length = 1 + (push [] bytesA).1.length) ∧
      (([0xFF] : List Byte) ≠ [] ∧ fits (st [] (some 0)).build (push [] [0xFF]).2 = true ∧
        [7].length = 1 + (push [] [0xFF]).1.length) ∧
      (st [] (some 0)).frames = [] ∧ (st [] (some 0)).inputs = [] := by
  decide

theorem witness_OutputBeatsMarkTheLastResult : [Result.err (groupError 0x24 0x31)] ≠ [] := by decide

/-- A waiting frame; an operation; an input that is no instruction; nothing. -/
theorem witness_StepRunsTheNextInput :
    ({ st [] none with frames := [frameA] }).frames = frameA :: [] ∧
      (((st [] none).present ⟨.reset, []⟩).inputs = ⟨.reset, []⟩ :: [] ∧ decode gk ⟨.reset, []⟩ = .ok .reset) ∧
      (((st [] none).present ⟨.reset, [0]⟩).inputs = ⟨.reset, [0]⟩ :: [] ∧
        decode gk ⟨.reset, [0]⟩ = .error .resetWithBytes) ∧
      (st [] none).frames = [] ∧ (st [] none).inputs = [] := by
  decide

/-- The shortest and the longest word. -/
theorem witness_PlacedWordRunsNext :
    decode gk (wordInput 0 0) = .ok .reset ∧
      decode gk (wordInput 112 0xE0D0C0B0A09E837E635E433E2310) = .ok (.decode frameA) := by
  decide

/-- Two results delivered. -/
def twoErrors : List Result := [.err (groupError 0x24 0x31), .err (groupError 0x44 0x51)]

theorem witness_StepKeepsTheInvariant :
    ({ st [0x10] (some 1) with frames := [frameA], results := twoErrors, batch := twoErrors.tail }).Inv ∧
      ∃ t, step { st [0x10] (some 1) with frames := [frameA], results := twoErrors, batch := twoErrors.tail } = .next t :=
  ⟨⟨by decide, by decide, by decide, by decide⟩, _, rfl⟩

theorem witness_DecodeIsAFunctionOfTheFrame : (st [0x10] none).build.segtab = (st [] (some 7)).build.segtab := rfl

/-- An unbounded block, and an instruction that does not answer a next state. -/
theorem witness_OnlyAFullCarryStops :
    (st [] none).build.carryCap = none ∧ ∀ t, exec (.push [0x10]) (st [] (some 0)) ≠ .next t := by
  refine ⟨rfl, fun t h => ?_⟩
  have h2 : exec (.push [0x10]) (st [] (some 0)) = .fault .carryOverflow := rfl
  rw [h2] at h
  cases h

end Sys2Proof.Tests
end

section
/-! The segment code of a digit group, as arithmetic on its two bytes and as bit fields (R41). -/
namespace Sys2Proof

/-- The masked bytes, shifted and joined. -/
theorem toNat_segCode (msb lsb : Byte) :
    (segCode msb lsb).toNat = ((msb.toNat &&& 0x7) <<< 4) ||| (lsb.toNat &&& 0xF) := by
  have hmsb : (msb.extractLsb' 0 3).toNat = msb.toNat &&& 0x7 := (Nat.and_two_pow_sub_one_eq_mod _ 3).symm
  have hlsb : (lsb.extractLsb' 0 4).toNat = lsb.toNat &&& 0xF := (Nat.and_two_pow_sub_one_eq_mod _ 4).symm
  rw [segCode, BitVec.toNat_append, hmsb, hlsb]

/-- `code[6:4] = msb[2:0]`. -/
@[simp] theorem extractLsb'_segCode_high (msb lsb : Byte) :
    (segCode msb lsb).extractLsb' 4 3 = msb.extractLsb' 0 3 :=
  BitVec.extractLsb'_append_eq_left

/-- `code[3:0] = lsb[3:0]`. -/
@[simp] theorem extractLsb'_segCode_low (msb lsb : Byte) :
    (segCode msb lsb).extractLsb' 0 4 = lsb.extractLsb' 0 4 :=
  BitVec.extractLsb'_append_eq_right

/-- Settles O6: the code appends `msb[2:0]` to `lsb[3:0]`, so masking is the remainder by a power of two. -/
theorem segmentCodeJoinsTheLowBits : Obligations.SegmentCodeJoinsTheLowBits := fun msb lsb =>
  ⟨toNat_segCode msb lsb, extractLsb'_segCode_high msb lsb, extractLsb'_segCode_low msb lsb⟩

end Sys2Proof
end

section
/-! DECODE of a frame whose four codes are in the table: what it delivers, and which flags steer the number and the unit
(R86 to R97, R103). -/
namespace Sys2Proof.Machine

/-! ### What DECODE delivers -/

@[simp] theorem exec_decode (f : Frame) (s : State) :
    exec (.decode f) s = .next (s.deliver (decodeFrame s.build.segtab f)) := rfl

/-- The next state written out: only the two records of results change. -/
theorem exec_decode_of_entries {s : State} {f : Frame} {th hu te on : Fin 12}
    (hth : entry s.build.segtab th = segCode f.b1 f.b2) (hhu : entry s.build.segtab hu = segCode f.b3 f.b4)
    (hte : entry s.build.segtab te = segCode f.b5 f.b6) (hon : entry s.build.segtab on = segCode f.b7 f.b8) :
    let m := assemble f (tubeAt th).value (tubeAt hu).value (tubeAt te).value (tubeAt on).value
    exec (.decode f) s = .next { s with batch := s.batch ++ [.ok m], results := s.results ++ [.ok m] } := by
  rw [exec_decode, decodeFrame_of_entries hth hhu hte hon, State.deliver]

@[simp] theorem assemble_number (f : Frame) (th hu te on : F64) :
    (assemble f th hu te on).number = assembleNumber f th hu te on := rfl

@[simp] theorem assemble_unit (f : Frame) (th hu te on : F64) :
    (assemble f th hu te on).unit = resolveUnit (frameFlags f) := rfl

@[simp] theorem assemble_flags (f : Frame) (th hu te on : F64) : (assemble f th hu te on).flags = frameFlags f := rfl

/-! ### The number and the unit string -/

/-- R95 to R97 over the frame bits: the sign is bit 3 of byte 1, the points are bit 3 of bytes 3, 5 and 7. -/
theorem assembleNumber_eq (f : Frame) (th hu te on : F64) :
    assembleNumber f th hu te on =
      multiplierScale (frameFlags f)
        (decimalScale (f.b3.getLsbD 3) (f.b5.getLsbD 3) (f.b7.getLsbD 3)
          (applySign (f.b1.getLsbD 3) (rawReading th hu te on))) := rfl

/-- The priority list of R103 with each unit replaced by its string: `Option.map` goes into the branches. -/
theorem map_unitText_resolveUnit (g : Flags) :
    (resolveUnit g).map unitText =
      if g.ohm then some "\u03A9"
      else if g.A then some "A"
      else if g.V || g.mV then some "V"
      else if g.Hz then some "Hz"
      else if g.celsius then some "\u00B0C"
      else if g.F then some "F"
      else none := by
  simp only [resolveUnit, apply_ite (Option.map unitText), Option.map_some, Option.map_none, unitText]

/-! ### The flags that steer -/

/-- Two flag sets that agree on the flags DECODE reads again: the multipliers of R97 and the units of R103. The other flags
are only copied. -/
structure Flags.SteersLike (g g' : Flags) : Prop where
  u : g.u = g'.u
  n : g.n = g'.n
  k : g.k = g'.k
  m : g.m = g'.m
  M : g.M = g'.M
  F : g.F = g'.F
  ohm : g.ohm = g'.ohm
  A : g.A = g'.A
  V : g.V = g'.V
  Hz : g.Hz = g'.Hz
  mV : g.mV = g'.mV
  celsius : g.celsius = g'.celsius

theorem Flags.SteersLike.multiplierScale_eq {g g' : Flags} (h : g.SteersLike g') (x : F64) :
    multiplierScale g x = multiplierScale g' x := by
  simp only [multiplierScale, h.n, h.u, h.m, h.mV, h.k, h.M]

theorem Flags.SteersLike.resolveUnit_eq {g g' : Flags} (h : g.SteersLike g') : resolveUnit g = resolveUnit g' := by
  simp only [resolveUnit, h.ohm, h.A, h.V, h.mV, h.Hz, h.celsius, h.F]

/-- Bytes that agree under a mask agree in each bit of the mask. -/
theorem getLsbD_eq_of_and_eq {x y mask : Byte} (h : x &&& mask = y &&& mask) (i : Nat) (hi : mask.getLsbD i = true) :
    x.getLsbD i = y.getLsbD i := by
  simpa only [BitVec.getLsbD_and, hi, Bool.and_true] using congrArg (·.getLsbD i) h

/-- The masks keep the bits of bytes 9 to 13 that steer (R87 to R91); byte 0 holds none (R86). -/
theorem frameFlags_steersLike {f f' : Frame} (h9 : f'.b9 &&& 0x0E = f.b9 &&& 0x0E) (h10 : f'.b10 &&& 0x0A = f.b10 &&& 0x0A)
    (h11 : f'.b11 &&& 0x0C = f.b11 &&& 0x0C) (h12 : f'.b12 &&& 0x0E = f.b12 &&& 0x0E)
    (h13 : f'.b13 &&& 0x06 = f.b13 &&& 0x06) : (frameFlags f').SteersLike (frameFlags f) where
  u := getLsbD_eq_of_and_eq h9 3 rfl
  n := getLsbD_eq_of_and_eq h9 2 rfl
  k := getLsbD_eq_of_and_eq h9 1 rfl
  m := getLsbD_eq_of_and_eq h10 3 rfl
  M := getLsbD_eq_of_and_eq h10 1 rfl
  F := getLsbD_eq_of_and_eq h11 3 rfl
  ohm := getLsbD_eq_of_and_eq h11 2 rfl
  A := getLsbD_eq_of_and_eq h12 3 rfl
  V := getLsbD_eq_of_and_eq h12 2 rfl
  Hz := getLsbD_eq_of_and_eq h12 1 rfl
  mV := getLsbD_eq_of_and_eq h13 2 rfl
  celsius := getLsbD_eq_of_and_eq h13 1 rfl

/-! ### The statements -/

/-- Settles O21: the delivered Measurement is the assembled one, and its number is the four stages of R93 to R97 in turn. -/
theorem decodeAssemblesTheNumber : Obligations.DecodeAssemblesTheNumber := by
  intro s f th hu te on hth hhu hte hon
  refine ⟨_, exec_decode_of_entries hth hhu hte hon, ⟨rfl, rfl, rfl, rfl, rfl, rfl⟩, ?_⟩
  intro raw signed scaled
  have hraw : rawReading (tubeAt th).value (tubeAt hu).value (tubeAt te).value (tubeAt on).value = raw := rfl
  have hsigned : applySign (f.b1.getLsbD 3) raw = signed := rfl
  have hscaled : decimalScale (f.b3.getLsbD 3) (f.b5.getLsbD 3) (f.b7.getLsbD 3) signed = scaled := rfl
  rw [assemble_number, assembleNumber_eq, hraw, hsigned, hscaled, multiplierScale, frameFlags]

/-- Settles O22: the flags are the frame's, and the changed frame has the same digit groups, sign and points and flags that
steer alike. -/
theorem decodeCopiesTheFlagBits : Obligations.DecodeCopiesTheFlagBits := by
  intro s f th hu te on hth hhu hte hon
  refine ⟨_, exec_decode_of_entries hth hhu hte hon, ⟨rfl, rfl, rfl, rfl⟩, ⟨rfl, rfl, rfl, rfl⟩, ⟨rfl, rfl, rfl, rfl⟩,
    ⟨rfl, rfl, rfl, rfl⟩, ⟨rfl, rfl, rfl, rfl⟩, ⟨rfl, rfl⟩, ?_⟩
  intro x0 x9 x10 x11 x12 x13 h9 h10 h11 h12 h13
  let f' : Frame := { f with b0 := x0, b9 := x9, b10 := x10, b11 := x11, b12 := x12, b13 := x13 }
  have hsteer : (frameFlags f').SteersLike (frameFlags f) := frameFlags_steersLike h9 h10 h11 h12 h13
  exact ⟨_, hsteer.multiplierScale_eq _, hsteer.resolveUnit_eq, exec_decode_of_entries (f := f') hth hhu hte hon⟩

/-- Settles O23: the unit is resolved from the frame's flags, and the strings follow its priority list. -/
theorem decodeResolvesTheUnit : Obligations.DecodeResolvesTheUnit := by
  intro s f th hu te on hth hhu hte hon
  refine ⟨_, exec_decode_of_entries hth hhu hte hon, ?_⟩
  rw [assemble_unit, map_unitText_resolveUnit, frameFlags]

end Sys2Proof.Machine
end

section
/-! The encoder and the decoder undo each other (30_encoding.md R36 to R41, R49, R50). -/
namespace Sys2Proof

/-- A digit group made for entry `k` decodes to the row of entry `k`, with the bits beside the code. -/
@[simp] theorem decode_encodeEntry (tab : SegTab) (k : Fin 12) (pad : GroupPad) :
    decode tab (encodeEntry tab k pad) = .ok (segtabInstr k pad) := by
  rw [encodeEntry, decode_group, decodePair_of_entry (k := k) (by simp), groupPad_group]

/-- Settles O1: a PUSH is no sync burst, an illegal group is in no entry, and a row SEGTAB[k] is an entry's digit group. -/
theorem decodeInvertsEncode : Obligations.DecodeInvertsEncode := by
  intro tab i hwf
  cases i with
  | push newBytes =>
    have hburst : isSyncBurst newBytes = false := by simpa [Instr.wellFormed] using hwf
    rw [encode, decode_burst, decodeBurst_of_not_sync hburst]
  | reset => rfl
  | decode f => rfl
  | sync low => rw [encode, decode_burst, decodeBurst_of_sync (isSync_syncByte low), lowNibble_syncByte]
  | illegalSegcode msb lsb =>
    have hnone : Machine.lookup tab (segCode msb lsb) = none := by simpa [Instr.wellFormed] using hwf
    rw [encode, decode_group, decodePair_of_illegal (Machine.lookup_eq_none_iff.mp hnone)]
  | _ => exact decode_encodeEntry tab _ _

/-! ### What is decoded -/

theorem wellFormed_segtabInstr (tab : SegTab) (k : Fin 12) (pad : GroupPad) :
    (segtabInstr k pad).wellFormed tab = true := by
  revert k
  simp [segtabInstr, Instr.wellFormed, Fin.forall_fin_succ]

/-- A burst of one sync byte is the row SYNC, and every other burst a PUSH. -/
theorem encode_decodeBurst (tab : SegTab) (newBytes : List Byte) :
    encode tab (decodeBurst newBytes) = ⟨.burst, newBytes⟩ ∧ (decodeBurst newBytes).wellFormed tab = true := by
  cases hburst : isSyncBurst newBytes with
  | false =>
    rw [decodeBurst_of_not_sync hburst]
    exact ⟨rfl, by simp [Instr.wellFormed, hburst]⟩
  | true =>
    obtain ⟨b, rfl, hb⟩ : ∃ b, newBytes = [b] ∧ isSync b = true := by
      match newBytes, hburst with
      | [b], hb => exact ⟨b, rfl, hb⟩
    rw [decodeBurst_of_sync hb]
    exact ⟨by rw [encode, syncByte_lowNibble hb], rfl⟩

/-- A digit group is made of the code and the bits that its instruction holds. -/
theorem encode_decodePair (tab : SegTab) (msb lsb : Byte) :
    encode tab (decodePair tab msb lsb) = ⟨.group, [msb, lsb]⟩ ∧ (decodePair tab msb lsb).wellFormed tab = true := by
  cases hl : Machine.lookup tab (segCode msb lsb) with
  | some k =>
    have hk : Machine.entry tab k = segCode msb lsb := Machine.lookup_eq_some_iff.mp hl
    rw [decodePair_of_entry hk, encode_segtabInstr, encodeEntry, hk, groupMsb_segCode, groupLsb_segCode]
    exact ⟨rfl, wellFormed_segtabInstr tab k _⟩
  | none =>
    rw [decodePair_of_illegal (Machine.lookup_eq_none_iff.mp hl)]
    exact ⟨rfl, by rw [Instr.wellFormed, hl, Option.isNone_none]⟩

/-- Settles O2, interface by interface. -/
theorem encodeInvertsDecode : Obligations.EncodeInvertsDecode := by
  rintro tab ⟨port, bytes⟩ i h
  cases port with
  | reset =>
    cases bytes with
    | nil => cases h; exact ⟨rfl, rfl⟩
    | cons b bs => cases h
  | burst => cases h; exact encode_decodeBurst tab bytes
  | frame =>
    cases hf : Frame.ofList? bytes with
    | some f =>
      obtain rfl := Frame.ofList?_eq_some hf
      cases h
      exact ⟨rfl, rfl⟩
    | none => simp [decode, hf] at h
  | group =>
    match bytes, h with
    | [msb, lsb], h => cases h; exact encode_decodePair tab msb lsb

/-- Settles O4: a sequence is a frame's bytes iff it has 14 of them. -/
theorem frameInterfaceTakesFourteenBytes : Obligations.FrameInterfaceTakesFourteenBytes := by
  intro tab bytes
  constructor
  · intro hlen
    obtain ⟨f, rfl⟩ := Frame.exists_of_length hlen
    exact ⟨f, rfl, decode_frame tab f⟩
  · intro hlen
    have hnone : Frame.ofList? bytes = none := by
      rw [Option.eq_none_iff_forall_ne_some]
      intro f hf
      exact hlen (by rw [← Frame.ofList?_eq_some hf, Frame.length_toList])
    simp [decode, hnone]

/-! ### Fixed patterns -/

/-- Settles O3: neither a burst nor a frame reads the table, so the unknown one decodes them. -/
theorem wordsFromTheEncodingsDecode : Obligations.WordsFromTheEncodingsDecode := ⟨rfl, rfl, rfl, rfl, rfl⟩

/-- Settles O5, over the 256 bytes. -/
theorem syncBytesAreSixteen : Obligations.SyncBytesAreSixteen := by
  intro b
  refine ⟨isSync_iff_highNibble b, ?_⟩
  revert b
  decide +kernel

end Sys2Proof
end

section
/-! What a step runs, what no instruction writes, and the invariant of the state (R10, R11, R16, R35, R69, R120). -/
namespace Sys2Proof.Machine

/-! ### What a step runs -/

/-- Settles O45: what `fetch` finds is what runs. -/
theorem stepRunsTheNextInput : Obligations.StepRunsTheNextInput := by
  intro s
  refine ⟨fun f fs hf => step_of_frame hf, ?_, ?_, fun hf hx => step_of_idle (fetch_of_idle hf hx)⟩
  · intro x xs i hf hx hd
    exact step_of_fetch (fetch_of_input hf hx) hd
  · intro x xs r hf hx hd
    simp [step, fetch_of_input hf hx, hd]

/-- Settles O46: a placed word is what `fetch` finds. -/
theorem placedWordRunsNext : Obligations.PlacedWordRunsNext := by
  intro s nbits w i hd
  exact step_of_fetch (s := s.withFetchWord nbits w) (fetch_of_input rfl rfl) hd

/-! ### What the four updates leave -/

theorem Update.build {s t : State} (h : Update s t) : t.build = s.build := by
  cases h <;> rfl

theorem Update.inputs {s t : State} (h : Update s t) : t.inputs = s.inputs := by
  cases h <;> rfl

/-- What `fetch` takes off is a frame or an operation. -/
theorem fetch_build {s u : State} {x : Stimulus} (h : fetch s = some (x, u)) : u.build = s.build := by
  rcases fetch_cases h with ⟨f, fs, -, -, rfl⟩ | ⟨xs, -, -, rfl⟩ <;> rfl

/-- Settles O51: every update keeps the build and the operations, and so does taking an input. -/
theorem buildIsNeverWritten : Obligations.BuildIsNeverWritten := by
  refine ⟨?_, fun i s t h => ⟨(exec_next h).build, (exec_next h).inputs⟩⟩
  intro s t h
  rcases step_next h with ⟨-, rfl⟩ | ⟨x, u, i, hfetch, -, hexec⟩
  · rfl
  · exact (exec_next hexec).build.trans (fetch_build hfetch)

/-- A digit group presented alone leaves the Framer as it is (R10). -/
theorem presentGroup_framer {msb lsb : Byte} {s t : State} (h : presentGroup msb lsb s = .next t) :
    t.carry = s.carry ∧ t.frames = s.frames := by
  rcases presentGroup_cases msb lsb s with ⟨k, e⟩ | e <;> rw [e] at h <;> cases h <;> exact ⟨rfl, rfl⟩

/-- Settles O50: DECODE and the digit groups leave `carry` and the frames. -/
theorem onlyTheFramerWritesCarry : Obligations.OnlyTheFramerWritesCarry := by
  intro i s t h hchange
  have hsame : ¬ (t.carry = s.carry ∧ t.frames = s.frames) := fun hs => hchange.elim (· hs.1) (· hs.2)
  cases i with
  | push newBytes => exact .inl ⟨newBytes, rfl⟩
  | sync low => exact .inr (.inl ⟨low, rfl⟩)
  | reset => exact .inr (.inr rfl)
  | decode f => cases h; exact absurd ⟨rfl, rfl⟩ hsame
  | _ => exact absurd (presentGroup_framer h) hsame

/-- Settles O53: `exec_cases` says what can stop, and every instruction but PUSH and SYNC answers a next state. -/
theorem onlyAFullCarryStops : Obligations.OnlyAFullCarryStops := by
  intro i s
  constructor
  · intro hcap
    rcases exec_cases i s with hnext | ⟨newBytes, -, -, hfits⟩
    · exact hnext
    · rw [fits_of_unbounded hcap] at hfits
      cases hfits
  · intro hstop
    have hfault : exec i s = .fault .carryOverflow := by
      rcases exec_cases i s with ⟨t, ht⟩ | ⟨newBytes, -, hfault, -⟩
      · exact absurd ht (hstop t)
      · exact hfault
    refine ⟨hfault, ?_⟩
    cases i with
    | push newBytes => exact .inl ⟨newBytes, rfl⟩
    | sync low => exact .inr ⟨low, rfl⟩
    | _ => cases hfault

/-- Settles O20: a RESET is `State.cleared`. -/
theorem resetEmptiesTheCarry : Obligations.ResetEmptiesTheCarry := fun _ => rfl

/-- Settles O52: the result that DECODE delivers is a function of the table and the frame. -/
theorem decodeIsAFunctionOfTheFrame : Obligations.DecodeIsAFunctionOfTheFrame := by
  intro s s' f htab
  refine ⟨decodeFrame s.build.segtab f, rfl, ?_⟩
  rw [htab]
  rfl

/-! ### The invariant -/

/-- Settles O47. -/
theorem resetStateIsEmpty : Obligations.ResetStateIsEmpty := rfl

/-- Settles O48: everything is empty. -/
theorem resetMeetsTheInvariant : Obligations.ResetMeetsTheInvariant where
  carryOk := rfl
  fits := fits_nil _
  frames := by simp [State.reset]
  batch := List.suffix_rfl

/-- Taking an input off keeps the invariant. -/
theorem State.Inv.fetch {s u : State} {x : Stimulus} (hs : s.Inv) (h : fetch s = some (x, u)) : u.Inv := by
  rcases fetch_cases h with ⟨f, fs, hframes, -, rfl⟩ | ⟨xs, -, -, rfl⟩
  · exact { hs with frames := fun g hg => hs.frames g (by simp [hframes, hg]) }
  · exact { hs with }

/-- Results delivered end both records alike. -/
theorem State.Inv.deliver {s : State} (hs : s.Inv) (r : Result) : (s.deliver r).Inv := by
  obtain ⟨earlier, hresults⟩ := hs.batch
  exact { hs with batch := ⟨earlier, by simp [← hresults]⟩ }

/-- Every update keeps the invariant. -/
theorem Update.inv {s t : State} (h : Update s t) (hs : s.Inv) : t.Inv := by
  cases h with
  | framed newBytes hfits =>
    exact {
      carryOk := carryOk_push s.carry newBytes
      fits := hfits
      frames := fun f hf => (List.mem_append.mp hf).elim (hs.frames f) (frameTailOk_push f)
      batch := List.nil_suffix }
  | cleared => exact { carryOk := rfl, fits := fits_nil _, frames := hs.frames, batch := List.suffix_rfl }
  | delivered r => exact hs.deliver r
  | latched t => exact { hs with }

/-- Settles O49: an idle step changes nothing; another takes an input and makes one update. -/
theorem stepKeepsTheInvariant : Obligations.StepKeepsTheInvariant := by
  intro s t hs h
  rcases step_next h with ⟨-, rfl⟩ | ⟨x, u, i, hfetch, -, hexec⟩
  · exact hs
  · exact (exec_next hexec).inv (hs.fetch hfetch)

end Sys2Proof.Machine
end

section
/-! PUSH, case by case: the groups of R62, whole groups and the first other one (R63 to R66), the cases of R67 and R68, and
the hazards of R74. -/
namespace Sys2Proof.Machine

@[simp] theorem exec_push (newBytes : List Byte) (s : State) : exec (.push newBytes) s = pushBurst newBytes s := rfl

@[simp] theorem exec_sync (low : Nibble) (s : State) : exec (.sync low) s = pushBurst [syncByte low] s := rfl

/-- One PUSH on the state, when it is known what the pure PUSH gives and the new `carry` fits. -/
theorem pushBurst_of_push {s : State} {newBytes carry : List Byte} {fs : List Frame}
    (h : push s.carry newBytes = (fs, carry)) (hfits : fits s.build carry = true) :
    pushBurst newBytes s = .next { s with carry := carry, frames := s.frames ++ fs, batch := [] } := by
  rw [pushBurst_of_fits (by rwa [h]), h, State.framed]

/-- The same when no frame is emitted. -/
theorem pushBurst_of_push_nil {s : State} {newBytes carry : List Byte} (h : push s.carry newBytes = ([], carry))
    (hfits : fits s.build carry = true) : pushBurst newBytes s = .next { s with carry := carry, batch := [] } := by
  rw [pushBurst_of_push h hfits, List.append_nil]

/-! ### The partition (R62) -/

/-- Settles O7: the first group may be noise and the others are aligned, which is how `groups` cuts their bytes. -/
theorem groupsAreThePartition : Obligations.GroupsAreThePartition := by
  intro all hne
  obtain ⟨hflatten, hnonempty, hinner, hheads, -⟩ := groups_spec all
  refine ⟨⟨hflatten, hnonempty, hinner, hheads⟩, fun gs hgs => ?_⟩
  cases gs with
  | nil => exact absurd hgs.flatten.symm hne
  | cons g gs =>
    rw [← hgs.flatten, List.flatten_cons, groups_noise_append (hgs.nonempty g (by simp)) (hgs.inner g (by simp))
      (gs := gs) hgs.heads]

/-! ### Whole groups, and the first other one (R64, R65) -/

/-- A group that is not aligned holds no sync byte at all. -/
theorem IsGroups.noSync_of_not_aligned {all g : List Byte} {gs : List (List Byte)} (h : IsGroups all gs) (hg : g ∈ gs)
    (hna : isAlignedGroup g = false) : noSync g = true := by
  cases g with
  | nil => rfl
  | cons b rest =>
    have hrest : noSync rest = true := h.inner (b :: rest) hg
    simpa [hrest] using hna

/-- The noise before the groups, laid end to end. -/
theorem IsGroups.noSync_noise {all : List Byte} {noise gs : List (List Byte)} (h : IsGroups all (noise ++ gs))
    (hnoise : noise = [] ∨ ∃ n, noise = [n] ∧ isAlignedGroup n = false) : noSync noise.flatten = true := by
  rcases hnoise with rfl | ⟨n, rfl, hn⟩
  · rfl
  · simpa using h.noSync_of_not_aligned (g := n) (by simp) hn

/-- The slices of a whole aligned group: the first holds its sync byte, the others hold none (R64). -/
theorem chop_of_aligned {g : List Byte} (hg : isAlignedGroup g = true) (hlen : g.length % 14 = 0) :
    ∃ f rest, chop g = f :: rest ∧ isCleanFrame f = true ∧ ∀ x ∈ rest, noSync x.toList = true := by
  have hpos : 0 < g.length := List.length_pos_iff.mpr (ne_nil_of_isAlignedGroup hg)
  obtain ⟨f, rest, rfl⟩ := exists_frame_append (g := g) (by omega)
  have hsplit : isSync f.b0 = true ∧ noSync (f.toList.tail ++ rest) = true := by
    simpa [Frame.toList] using hg
  obtain ⟨hfirst, hothers⟩ := hsplit
  rw [noSync_append, Bool.and_eq_true] at hothers
  refine ⟨f, chop rest, chop_toList_append f rest, by rw [isCleanFrame, hfirst, frameTailOk, hothers.1]; rfl, ?_⟩
  exact noSync_of_mem_chop (q := rest.length / 14) (by simp at hlen; omega) hothers.2

/-- Settles O8: the bytes are noise and whole groups, each of which is cut into its slices. -/
theorem pushEmitsWholeGroups : Obligations.PushEmitsWholeGroups := by
  intro s newBytes noise whole hnoise hwhole hgroups
  have hpush : push s.carry newBytes = (whole.flatMap chop, []) :=
    push_of_whole (hgroups.noSync_noise hnoise) hwhole (by rw [← hgroups.flatten, List.flatten_append])
  refine ⟨whole.map chop, ?_, ?_, ?_⟩
  · rw [exec_push, pushBurst_of_push hpush (fits_nil _), List.flatMap_def]
  · rw [List.map_map]
    exact (List.map_congr_left fun g hg => flatMap_chop (hwhole g hg).2).trans (List.map_id whole)
  · intro fs hfs
    obtain ⟨g, hg, rfl⟩ := List.mem_map.mp hfs
    exact chop_of_aligned (hwhole g hg).1 (hwhole g hg).2

/-- Settles O9: the groups after the kept one are no first group, so they are aligned. -/
theorem pushKeepsTheFirstOtherGroup : Obligations.PushKeepsTheFirstOtherGroup := by
  intro s newBytes kept noise whole dropped hnoise hwhole hkept hlen hfits hgroups
  have hdropped : ∀ g ∈ dropped, isAlignedGroup g = true := by
    intro g hg
    have htail : (noise ++ whole ++ kept :: dropped).tail = (noise ++ whole ++ [kept]).tail ++ dropped := by
      rw [← List.tail_append_of_ne_nil (by simp)]; simp
    exact hgroups.heads g (by rw [htail]; simp [hg])
  have hpush : push s.carry newBytes = (whole.flatMap chop, kept) := by
    refine push_of_kept (noise := noise.flatten) ?_ hwhole hkept hlen hdropped ?_
    · rw [List.append_assoc] at hgroups
      exact hgroups.noSync_noise hnoise
    · rw [← hgroups.flatten]; simp
  refine ⟨whole.flatMap chop, ?_, flatMap_flatMap_chop fun g hg => (hwhole g hg).2⟩
  rw [exec_push, pushBurst_of_push hpush ((fits_iff _ _).mpr hfits)]

/-- Settles O10: the new `carry` fits or it does not. -/
theorem pushCompletesOrOverflows : Obligations.PushCompletesOrOverflows := by
  intro s i newBytes hi
  have hexec : exec i s = pushBurst newBytes s := by
    rcases hi with rfl | ⟨low, rfl, rfl⟩ <;> rfl
  rw [hexec]
  constructor
  · intro hfits
    exact ⟨_, _, pushBurst_of_fits ((fits_iff _ _).mpr hfits)⟩
  · intro n hcap hlong
    have hfits : ¬ fits s.build (push s.carry newBytes).2 = true := fun h =>
      absurd ((fits_iff _ _).mp h n hcap) (by omega)
    rw [pushBurst, if_neg hfits]

/-! ### A held group and the bursts after it (R68, R74) -/

/-- A held group stays as it is when nothing comes, or something that begins with a sync byte. -/
theorem push_of_held {carry newBytes : List Byte} (hne : carry ≠ []) (hok : carryOk carry = true)
    (hsync : ∀ c ∈ newBytes.head?, isSync c = true) : push carry newBytes = ([], carry) := by
  obtain ⟨hal, hlen⟩ := (carryOk_cases hok).resolve_left hne
  have hdropped : ∀ g ∈ groups newBytes, isAlignedGroup g = true := by
    cases newBytes with
    | nil => simp
    | cons c rest => exact (groups_spec (c :: rest)).2.2.2.2 c rfl (hsync c rfl)
  exact push_of_kept (noise := []) (whole := []) (dropped := groups newBytes) rfl (by simp) hal hlen hdropped
    (by simp [flatten_groups])

/-- Bytes without a sync byte are discarded when nothing is held. -/
theorem push_nil_of_noSync {newBytes : List Byte} (h : noSync newBytes = true) : push [] newBytes = ([], []) :=
  push_of_whole (whole := []) h (by simp) (by simp)

/-- One aligned group that is whole. -/
theorem push_of_whole_group {carry newBytes : List Byte} (hal : isAlignedGroup (carry ++ newBytes) = true)
    (hlen : (carry ++ newBytes).length % 14 = 0) : push carry newBytes = (chop (carry ++ newBytes), []) := by
  rw [push_of_whole (noise := []) (whole := [carry ++ newBytes]) rfl (by simpa [hal] using hlen) (by simp)]
  simp

/-- One aligned group that is not whole. -/
theorem push_of_short_group {carry newBytes : List Byte} (hal : isAlignedGroup (carry ++ newBytes) = true)
    (hlen : (carry ++ newBytes).length % 14 ≠ 0) : push carry newBytes = ([], carry ++ newBytes) :=
  push_of_kept (noise := []) (whole := []) (dropped := []) rfl (by simp) hal hlen (by simp) (by simp)

/-- Settles O11: the lone sync byte is a short group of its own, or comes after a held one. -/
theorem syncByteIsKeptOrDropped : Obligations.SyncByteIsKeptOrDropped := by
  intro s low
  rw [exec_sync]
  constructor
  · intro hempty hcap
    refine pushBurst_of_push_nil ?_ ((fits_iff _ _).mpr hcap)
    rw [hempty]
    exact push_of_short_group (by simp) (by simp)
  · intro hne hok hfits
    exact pushBurst_of_push_nil (push_of_held hne hok (by simp)) hfits

/-- Settles O14: nothing comes after the held group, if there is one. -/
theorem emptyBurstChangesNothing : Obligations.EmptyBurstChangesNothing := by
  intro s hok hfits
  have hpush : push s.carry [] = ([], s.carry) := by
    by_cases hne : s.carry = []
    · rw [hne, push_nil_nil]
    · exact push_of_held hne hok (by simp)
  exact pushBurst_of_push_nil hpush hfits

/-- Settles O15: a held group and bytes without a sync byte are one aligned group, whole or not. -/
theorem burstWithoutSyncByte : Obligations.BurstWithoutSyncByte := by
  intro s newBytes hok hns
  have hal : s.carry ≠ [] → isAlignedGroup (s.carry ++ newBytes) = true := by
    intro hne
    rw [isAlignedGroup_append ((carryOk_cases hok).resolve_left hne).1, hns]
  refine ⟨fun hempty => ?_, fun hne hlen => ?_, fun hne hlen hfits => ?_⟩
  · have hpush : push s.carry newBytes = ([], s.carry) := by rw [hempty, push_nil_of_noSync hns]
    exact pushBurst_of_push_nil hpush (by rw [hempty, fits_nil])
  · exact ⟨_, flatMap_chop hlen, pushBurst_of_push (push_of_whole_group (hal hne) hlen) (fits_nil _)⟩
  · exact pushBurst_of_push_nil (push_of_short_group (hal hne) hlen) hfits

/-- Settles O16: each burst leaves the held group as it is. -/
theorem wedgedFramerDiscardsBursts : Obligations.WedgedFramerDiscardsBursts := by
  intro carry bursts hne hok hbursts
  induction bursts with
  | nil => rfl
  | cons b bs ih =>
    obtain ⟨c, rest, rfl, hc⟩ := hbursts b (by simp)
    rw [pushAll, push_of_held hne hok (by simpa using hc), ih fun b hb => hbursts b (by simp [hb])]
    rfl

/-- Settles O17: the second half holds no sync byte, so alone it is noise. -/
theorem burstBoundariesAreObservable : Obligations.BurstBoundariesAreObservable := by
  intro a b hal ha hb
  obtain ⟨f, rfl⟩ := Frame.exists_of_length ha
  obtain ⟨g, rfl⟩ := Frame.exists_of_length hb
  have hf : isAlignedGroup f.toList = true ∧ noSync g.toList = true := by
    simpa [Frame.toList, and_assoc] using hal
  obtain ⟨hfirst, hsecond⟩ := hf
  have hjoined : push [] (f.toList ++ g.toList) = ([f, g], []) := push_of_whole_group hal (by simp)
  have hcut : push [] f.toList = ([f], []) := push_of_whole_group hfirst (by simp)
  refine ⟨f, g, rfl, rfl, ?_, ?_⟩
  · simp [pushAll, hjoined]
  · simp [pushAll, hcut, push_nil_of_noSync hsecond]

/-! ### Bytes in, bytes out (R67, R70) -/

/-- Settles O12: noise and what is dropped are left out of the bytes, and nothing else happens to them. -/
theorem pushNeverReordersBytes : Obligations.PushNeverReordersBytes := by
  intro s t newBytes h
  obtain ⟨-, rfl⟩ := pushBurst_next h
  obtain ⟨noise, whole, kept, dropped, hbytes, -, hwhole, -, hpush⟩ := push_cases s.carry newBytes
  refine ⟨(push s.carry newBytes).1, rfl, ?_⟩
  rw [State.framed_carry, hpush, hbytes, flatMap_flatMap_chop fun g hg => (hwhole g hg).2]
  calc List.Sublist (whole.flatten ++ kept) (noise ++ (whole.flatten ++ kept)) := List.sublist_append_right _ _
    List.Sublist _ (noise ++ (whole.flatten ++ kept) ++ dropped) := List.sublist_append_left _ _
    _ = noise ++ whole.flatten ++ kept ++ dropped := by simp

/-- If an aligned group and bytes after it are also a non-empty group and bytes that begin with a sync byte, the cut lies
behind the aligned group: inside it there is no other sync byte. -/
theorem exists_append_of_aligned {carry newBytes g rest : List Byte} (hal : isAlignedGroup carry = true) (hg : g ≠ [])
    (hrest : ∀ c ∈ rest.head?, isSync c = true) (h : carry ++ newBytes = g ++ rest) :
    ∃ p, g = carry ++ p ∧ newBytes = p ++ rest := by
  rcases List.append_eq_append_iff.mp h with ⟨p, hgp, hnew⟩ | ⟨q, hcq, hrq⟩
  · exact ⟨p, hgp, hnew⟩
  · cases q with
    | nil => exact ⟨[], by simpa using hcq.symm, by simpa using hrq.symm⟩
    | cons c q =>
      have hc : isSync c = true := hrest c (by simp [hrq])
      cases g with
      | nil => exact absurd rfl hg
      | cons b g =>
        rw [hcq] at hal
        simp [hc] at hal

/-- Bytes that begin with a sync byte have no noise before them. -/
theorem noise_eq_nil_of_aligned {carry newBytes noise rest : List Byte} (hal : isAlignedGroup carry = true)
    (hnoise : noSync noise = true) (h : carry ++ newBytes = noise ++ rest) : noise = [] := by
  cases noise with
  | nil => rfl
  | cons b noise =>
    cases carry with
    | nil => cases hal
    | cons c carry =>
      obtain ⟨rfl, -⟩ := List.cons.inj h
      rw [isAlignedGroup_cons, Bool.and_eq_true] at hal
      simp [hal.1] at hnoise

/-- What comes after the first of some whole groups and a kept one begins with a sync byte. -/
theorem isSync_head?_of_groups {whole : List (List Byte)} {kept dropped : List Byte}
    (hwhole : ∀ g ∈ whole, isAlignedGroup g = true) (hkept : isAlignedGroup kept = true) :
    ∀ c ∈ (whole.flatten ++ kept ++ dropped).head?, isSync c = true := by
  have hal : ∀ g ∈ whole ++ [kept], isAlignedGroup g = true := by
    intro g hg
    rcases List.mem_append.mp hg with hg | hg
    · exact hwhole g hg
    · rwa [List.mem_singleton.mp hg]
  have hne : whole.flatten ++ kept ≠ [] := by simp [ne_nil_of_isAlignedGroup hkept]
  intro c hc
  rw [List.head?_append_of_ne_nil _ hne] at hc
  exact head?_flatten_of_aligned hal c (by simpa using hc)

/-- R67 on the pure PUSH: the held group ends before the first cut, so the first group extends it and every later one is
new. -/
theorem push_carry_cases {carry newBytes : List Byte} (hok : carryOk carry = true) :
    (push carry newBytes).2 = [] ∨ (∃ p, p <+: newBytes ∧ (push carry newBytes).2 = carry ++ p) ∨
      (push carry newBytes).2 <:+: newBytes := by
  obtain ⟨noise, whole, kept, dropped, hbytes, hnoise, hwhole, hkept, hpush⟩ := push_cases carry newBytes
  rw [hpush]
  rcases hkept with ⟨rfl, -⟩ | ⟨hkept, -, hdropped⟩
  · exact .inl rfl
  rcases carryOk_cases hok with rfl | ⟨hal, -⟩
  · exact .inr (.inr ⟨noise ++ whole.flatten, dropped, hbytes.symm⟩)
  obtain rfl : noise = [] :=
    noise_eq_nil_of_aligned hal hnoise (rest := whole.flatten ++ kept ++ dropped) (by simpa using hbytes)
  cases whole with
  | nil =>
    obtain ⟨p, hp, hnew⟩ := exists_append_of_aligned hal (ne_nil_of_isAlignedGroup hkept) hdropped hbytes
    exact .inr (.inl ⟨p, ⟨dropped, hnew.symm⟩, hp⟩)
  | cons g whole =>
    have hsync := isSync_head?_of_groups (whole := whole) (dropped := dropped)
      (fun x hx => (hwhole x (by simp [hx])).1) hkept
    obtain ⟨p, -, hnew⟩ :=
      exists_append_of_aligned hal (ne_nil_of_isAlignedGroup (hwhole g (by simp)).1) hsync (by simpa using hbytes)
    exact .inr (.inr ⟨p ++ whole.flatten, dropped, by simp [hnew]⟩)

/-- Settles O13. -/
theorem carryIsExtendedOrNew : Obligations.CarryIsExtendedOrNew := by
  intro s t newBytes hok h
  obtain ⟨-, rfl⟩ := pushBurst_next h
  exact push_carry_cases hok

end Sys2Proof.Machine
end

section
/-! Clean streams (R72, R73): a stream may be cut anywhere, and a PUSH of its beginning gives the frames that are complete and
keeps the unfinished one. -/
namespace Sys2Proof.Machine

/-! ### The parts of a clean stream -/

theorem isClean_iff {noise tail : List Byte} {fs : List Frame} :
    isClean noise fs tail = true ↔ noSync noise = true ∧ (∀ f ∈ fs, isCleanFrame f = true) ∧ isCleanTail tail = true := by
  simp [isClean, and_assoc]

theorem isCleanTail_iff {bytes : List Byte} :
    isCleanTail bytes = true ↔ bytes = [] ∨ (isAlignedGroup bytes = true ∧ bytes.length ≤ 13) := by
  simp [isCleanTail]

theorem length_le_of_isCleanTail {bytes : List Byte} (h : isCleanTail bytes = true) : bytes.length ≤ 13 := by
  rcases isCleanTail_iff.mp h with rfl | ⟨-, hlen⟩
  · simp
  · exact hlen

/-- A clean frame is an aligned group of 14 bytes. -/
theorem isAlignedGroup_toList (f : Frame) : isAlignedGroup f.toList = isCleanFrame f := rfl

/-- The beginning of an aligned group is an unfinished frame if it is short enough. -/
theorem isCleanTail_of_append {a b : List Byte} (h : isAlignedGroup (a ++ b) = true) (hlen : a.length ≤ 13) :
    isCleanTail a = true := by
  rw [isCleanTail_iff]
  cases a with
  | nil => exact .inl rfl
  | cons c a =>
    have hal : isSync c = true ∧ noSync a = true ∧ noSync b = true := by simpa using h
    exact .inr ⟨by simp [hal.1, hal.2.1], hlen⟩

/-- A PUSH that completes a clean stream gives its frames and keeps its unfinished end. -/
theorem push_of_clean {carry newBytes noise tail : List Byte} {fs : List Frame} (hclean : isClean noise fs tail = true)
    (h : carry ++ newBytes = cleanStream noise fs tail) : push carry newBytes = (fs, tail) := by
  obtain ⟨hnoise, hframes, htail⟩ := isClean_iff.mp hclean
  have hwhole : ∀ g ∈ fs.map Frame.toList, isAlignedGroup g = true ∧ g.length % 14 = 0 := by
    intro g hg
    obtain ⟨f, hf, rfl⟩ := List.mem_map.mp hg
    exact ⟨hframes f hf, by simp⟩
  have hbytes : carry ++ newBytes = noise ++ (fs.map Frame.toList).flatten ++ tail := by
    rw [h, cleanStream, List.flatMap_def]
  have hslices : (fs.map Frame.toList).flatMap chop = fs := by simp [List.flatMap_map]
  rcases isCleanTail_iff.mp htail with rfl | ⟨hal, hlen⟩
  · rw [push_of_whole hnoise hwhole (by simpa using hbytes), hslices]
  · have hpos : 0 < tail.length := List.length_pos_iff.mpr (ne_nil_of_isAlignedGroup hal)
    rw [push_of_kept (dropped := []) hnoise hwhole hal (by omega) (by simp) (by simpa using hbytes), hslices]

/-! ### Cutting a clean stream -/

/-- Where a clean stream without noise is cut: after some frames, inside the next one or inside the end. What comes before the
cut is a clean stream, and its unfinished end goes on as a clean stream. -/
theorem exists_cut_of_frames {tail : List Byte} (htail : isCleanTail tail = true) :
    ∀ (fs : List Frame) (before after : List Byte), (∀ f ∈ fs, isCleanFrame f = true) →
      before ++ after = fs.flatMap Frame.toList ++ tail →
      ∃ (fs₁ fs₂ : List Frame) (mid : List Byte), fs = fs₁ ++ fs₂ ∧ before = fs₁.flatMap Frame.toList ++ mid ∧
        isCleanTail mid = true ∧ mid ++ after = fs₂.flatMap Frame.toList ++ tail
  | [], before, after, _, h => by
    refine ⟨[], [], before, rfl, rfl, ?_, h⟩
    rcases isCleanTail_iff.mp htail with rfl | ⟨hal, hlen⟩
    · obtain ⟨rfl, -⟩ := List.append_eq_nil_iff.mp h
      rfl
    · have hbytes : before ++ after = tail := h
      rw [← hbytes] at hal hlen
      exact isCleanTail_of_append hal (by simp at hlen; omega)
  | f :: fs, before, after, hframes, h => by
    have hf : isCleanFrame f = true := hframes f (by simp)
    rw [List.flatMap_cons, List.append_assoc] at h
    by_cases hlen : before.length ≤ 13
    · obtain ⟨rest, hrest⟩ : before <+: f.toList :=
        List.prefix_of_prefix_length_le ⟨after, h⟩ ⟨_, rfl⟩ (by rw [Frame.length_toList]; omega)
      refine ⟨[], f :: fs, before, rfl, rfl, isCleanTail_of_append (b := rest) ?_ hlen, by simpa using h⟩
      rw [hrest, isAlignedGroup_toList, hf]
    · obtain ⟨rest, rfl⟩ : f.toList <+: before :=
        List.prefix_of_prefix_length_le ⟨_, rfl⟩ ⟨after, h⟩ (by rw [Frame.length_toList]; omega)
      obtain ⟨fs₁, fs₂, mid, rfl, rfl, hmid, hgoes⟩ :=
        exists_cut_of_frames htail fs rest after (fun g hg => hframes g (by simp [hg])) (by simpa using h)
      exact ⟨f :: fs₁, fs₂, mid, rfl, by simp, hmid, hgoes⟩

/-- Where a clean stream is cut. -/
theorem exists_cut_of_clean {noise tail before after : List Byte} {fs : List Frame} (hclean : isClean noise fs tail = true)
    (h : before ++ after = cleanStream noise fs tail) :
    ∃ (noise₁ noise₂ mid : List Byte) (fs₁ fs₂ : List Frame), fs = fs₁ ++ fs₂ ∧ isClean noise₁ fs₁ mid = true ∧
      before = cleanStream noise₁ fs₁ mid ∧ isClean noise₂ fs₂ tail = true ∧ mid ++ after = cleanStream noise₂ fs₂ tail := by
  obtain ⟨hnoise, hframes, htail⟩ := isClean_iff.mp hclean
  rw [cleanStream, List.append_assoc] at h
  rcases List.append_eq_append_iff.mp h with ⟨noise₂, rfl, hafter⟩ | ⟨rest, rfl, hrest⟩
  · have hparts : noSync before = true ∧ noSync noise₂ = true := by simpa using hnoise
    refine ⟨before, noise₂, [], [], fs, rfl, ?_, by simp [cleanStream], isClean_iff.mpr ⟨hparts.2, hframes, htail⟩, ?_⟩
    · exact isClean_iff.mpr ⟨hparts.1, by simp, rfl⟩
    · simp [cleanStream, hafter]
  · obtain ⟨fs₁, fs₂, mid, rfl, rfl, hmid, hgoes⟩ := exists_cut_of_frames htail fs rest after hframes hrest.symm
    refine ⟨noise, [], mid, fs₁, fs₂, rfl, ?_, by simp [cleanStream], ?_, by simp [cleanStream, hgoes]⟩
    · exact isClean_iff.mpr ⟨hnoise, fun f hf => hframes f (by simp [hf]), hmid⟩
    · exact isClean_iff.mpr ⟨rfl, fun f hf => hframes f (by simp [hf]), htail⟩

/-- An unfinished frame alone is the clean stream with no noise and no frame. -/
theorem parts_of_short_clean {carry noise tail : List Byte} {fs : List Frame} (hcarry : isCleanTail carry = true)
    (hclean : isClean noise fs tail = true) (h : carry = cleanStream noise fs tail) : fs = [] ∧ carry = tail := by
  have hself : push carry [] = ([], carry) :=
    push_of_clean (noise := []) (isClean_iff.mpr ⟨rfl, by simp, hcarry⟩) (by simp [cleanStream])
  have hparts : push carry [] = (fs, tail) := push_of_clean hclean (by simpa using h)
  rw [hself] at hparts
  obtain ⟨hfs, htail⟩ := Prod.mk.inj hparts
  exact ⟨hfs.symm, htail⟩

/-- From an unfinished frame on, the bursts that complete a clean stream give its frames and leave its unfinished end. -/
theorem pushAll_of_clean : ∀ (bursts : List (List Byte)) {carry noise tail : List Byte} {fs : List Frame},
    isCleanTail carry = true → isClean noise fs tail = true → carry ++ bursts.flatten = cleanStream noise fs tail →
    pushAll carry bursts = (fs, tail)
  | [], carry, noise, tail, fs, hcarry, hclean, h => by
    obtain ⟨rfl, rfl⟩ := parts_of_short_clean hcarry hclean (by simpa using h)
    rfl
  | burst :: bursts, carry, noise, tail, fs, hcarry, hclean, h => by
    rw [List.flatten_cons, ← List.append_assoc] at h
    obtain ⟨noise₁, noise₂, mid, fs₁, fs₂, rfl, hclean₁, hbefore, hclean₂, hafter⟩ := exists_cut_of_clean hclean h
    rw [pushAll, push_of_clean hclean₁ hbefore, pushAll_of_clean bursts (isClean_iff.mp hclean₁).2.2 hclean₂ hafter]

/-- At every cut of a clean stream the Framer holds at most 13 bytes. -/
theorem length_pushAll_of_clean {noise tail : List Byte} {fs : List Frame} {before after : List (List Byte)}
    (hclean : isClean noise fs tail = true) (h : (before ++ after).flatten = cleanStream noise fs tail) :
    (pushAll [] before).2.length ≤ 13 := by
  rw [List.flatten_append] at h
  obtain ⟨noise₁, -, mid, fs₁, -, -, hclean₁, hbefore, -, -⟩ := exists_cut_of_clean hclean h
  rw [pushAll_of_clean before rfl hclean₁ (by simpa using hbefore)]
  exact length_le_of_isCleanTail (isClean_iff.mp hclean₁).2.2

/-- Settles O18. -/
theorem cleanStreamGivesItsFrames : Obligations.CleanStreamGivesItsFrames := by
  intro noise tail fs bursts hclean h
  refine ⟨pushAll_of_clean bursts rfl hclean (by simpa using h), ?_⟩
  rintro before after rfl
  exact length_pushAll_of_clean hclean h

end Sys2Proof.Machine
end

section
/-! Transactions on the machine (R120, R128): a step for each burst and a step for each frame. -/
namespace Sys2Proof.Machine

/-- However a burst decodes, it runs as a PUSH of its bytes (R36, R60). -/
theorem exec_decodeBurst (newBytes : List Byte) (s : State) : exec (decodeBurst newBytes) s = pushBurst newBytes s := by
  cases hburst : isSyncBurst newBytes with
  | false => rw [decodeBurst_of_not_sync hburst]; rfl
  | true =>
    match newBytes, hburst with
    | [b], hb => rw [decodeBurst_of_sync hb, exec_sync, syncByte_lowNibble hb]

/-- The state behind the step that runs a burst: its frames wait. -/
def State.afterPush (s : State) (newBytes : List Byte) (later : List Stimulus) : State :=
  { s with carry := (push s.carry newBytes).2, frames := (push s.carry newBytes).1, batch := [], inputs := later }

/-- The state behind a whole transaction: its frames are decoded. -/
def State.afterTransaction (s : State) (newBytes : List Byte) (later : List Stimulus) : State :=
  { s with
    carry := (push s.carry newBytes).2
    batch := (push s.carry newBytes).1.map (decodeFrame s.build.segtab)
    results := s.results ++ (push s.carry newBytes).1.map (decodeFrame s.build.segtab)
    inputs := later }

/-- The step that runs a burst which fits. -/
theorem step_of_burst {s : State} {newBytes : List Byte} {later : List Stimulus} (hframes : s.frames = [])
    (hinputs : s.inputs = ⟨.burst, newBytes⟩ :: later) (hfits : fits s.build (push s.carry newBytes).2 = true) :
    step s = .next (s.afterPush newBytes later) := by
  have hpush : pushBurst newBytes { s with inputs := later } = .next (s.afterPush newBytes later) := by
    rw [pushBurst_of_fits (s := { s with inputs := later }) hfits, State.framed, hframes]
    rfl
  rw [step_of_fetch (fetch_of_input hframes hinputs) (decode_burst _ _), exec_decodeBurst, hpush]

/-- The steps that decode the waiting frames, in order. -/
theorem run_frames : ∀ (fs : List Frame) {s : State}, s.frames = fs →
    Host.Core.run Sys2Proof.core fs.length s = .next { s with
      frames := []
      batch := s.batch ++ fs.map (decodeFrame s.build.segtab)
      results := s.results ++ fs.map (decodeFrame s.build.segtab) }
  | [], s, h => by
    obtain ⟨build, carry, frames, batch, results, tubes, inputs⟩ := s
    obtain rfl : frames = [] := h
    simp [Host.Core.run]
  | f :: fs, s, h => by
    have hstep : Sys2Proof.core.step s =
        .next (({ s with frames := fs } : State).deliver (decodeFrame s.build.segtab f)) := step_of_frame h
    rw [List.length_cons, run_next Sys2Proof.core _ hstep, run_frames fs rfl]
    simp [State.deliver]

/-- A whole transaction. -/
theorem run_transaction {s : State} {newBytes : List Byte} {later : List Stimulus} (hframes : s.frames = [])
    (hinputs : s.inputs = ⟨.burst, newBytes⟩ :: later) (hfits : fits s.build (push s.carry newBytes).2 = true) :
    Host.Core.run Sys2Proof.core (1 + (push s.carry newBytes).1.length) s = .next (s.afterTransaction newBytes later) := by
  have hstep : Sys2Proof.core.step s = .next (s.afterPush newBytes later) := step_of_burst hframes hinputs hfits
  have hdecodes := run_frames (push s.carry newBytes).1 (s := s.afterPush newBytes later) rfl
  rw [Nat.add_comm, run_next Sys2Proof.core _ hstep]
  simpa [State.afterPush, State.afterTransaction, hframes] using hdecodes

/-- Settles O38. -/
theorem transactionDecodesEveryFrame : Obligations.TransactionDecodesEveryFrame :=
  fun _ _ _ hframes hinputs hfits => run_transaction hframes hinputs hfits

/-- A sequence of transactions, as long as the `carry` of each fits (R128). -/
theorem run_bursts (later : List Stimulus) : ∀ (bursts : List (List Byte)) {s : State}, s.frames = [] →
    s.inputs = bursts.map (fun b => ⟨.burst, b⟩) ++ later →
    (∀ before after, bursts = before ++ after → fits s.build (pushAll s.carry before).2 = true) →
    ∃ batch, Host.Core.run Sys2Proof.core (bursts.length + (pushAll s.carry bursts).1.length) s = .next { s with
      carry := (pushAll s.carry bursts).2
      batch := if bursts = [] then s.batch else batch
      results := s.results ++ (pushAll s.carry bursts).1.map (decodeFrame s.build.segtab)
      inputs := later }
  | [], s, _, hinputs, _ => by
    obtain ⟨build, carry, frames, batch, results, tubes, inputs⟩ := s
    obtain rfl : inputs = later := hinputs
    exact ⟨[], by simp [Host.Core.run, pushAll]⟩
  | burst :: bursts, s, hframes, hinputs, hfits => by
    let t : State := s.afterTransaction burst (bursts.map (fun b => ⟨.burst, b⟩) ++ later)
    have hfirst : Host.Core.run Sys2Proof.core (1 + (push s.carry burst).1.length) s = .next t :=
      run_transaction hframes hinputs (hfits [burst] bursts rfl)
    obtain ⟨batch, hrest⟩ := run_bursts later bursts (s := t) hframes rfl
      (fun before after h => hfits (burst :: before) after (by rw [h]; rfl))
    have hsteps : (burst :: bursts).length + (pushAll s.carry (burst :: bursts)).1.length =
        (1 + (push s.carry burst).1.length) + (bursts.length + (pushAll t.carry bursts).1.length) := by
      simp [pushAll, t, State.afterTransaction]
      omega
    refine ⟨if bursts = [] then t.batch else batch, ?_⟩
    rw [hsteps, run_append Sys2Proof.core _ _ hfirst]
    simpa [pushAll, t, State.afterTransaction] using hrest

/-- Settles O19: the bursts of a clean stream never hold more than 13 bytes, and give exactly its frames. -/
theorem cleanStreamRunDeliversItsResults : Obligations.CleanStreamRunDeliversItsResults := by
  intro s noise tail fs bursts later hclean hbytes hcarry hframes hinputs hcap
  have hall : pushAll s.carry bursts = (fs, tail) := by
    rw [hcarry]
    exact pushAll_of_clean bursts rfl hclean (by simpa using hbytes)
  have hfits : ∀ before after, bursts = before ++ after → fits s.build (pushAll s.carry before).2 = true := by
    rintro before after rfl
    rw [fits_iff, hcarry]
    intro n hn
    exact (length_pushAll_of_clean hclean hbytes).trans (hcap n hn)
  have hrun := run_bursts later bursts hframes hinputs hfits
  rwa [hall] at hrun

end Sys2Proof.Machine
end

section
/-! The segment table and the errors of DECODE (R45, R47, R49, R83, R92, R106, R108, R130). -/
namespace Sys2Proof.Machine

/-! ### The twelve rows, and the codes in none -/

/-- Settles O35: row `k` answers `tubeAt k`, whose value is the binary64 pattern written out. -/
theorem segtabRowsAnswerTheirGlyph : Obligations.SegtabRowsAnswerTheirGlyph := by
  intro s pad
  exact ⟨presentEntry_eq 0 pad s, presentEntry_eq 1 pad s, presentEntry_eq 2 pad s, presentEntry_eq 3 pad s,
    presentEntry_eq 4 pad s, presentEntry_eq 5 pad s, presentEntry_eq 6 pad s, presentEntry_eq 7 pad s,
    presentEntry_eq 8 pad s, presentEntry_eq 9 pad s, presentEntry_eq 10 pad s, presentEntry_eq 11 pad s⟩

/-- A digit group whose code is entry `k` is answered with entry `k`, whatever row it is said to be. -/
theorem presentGroup_of_entry {msb lsb : Byte} {s : State} {k : Fin 12} (h : entry s.build.segtab k = segCode msb lsb) :
    presentGroup msb lsb s = .next (s.latch (tubeAt k)) := by
  rw [presentGroup, decodeGroup_of_entry h, State.settleGroup_tube]

/-- Settles O36. -/
theorem illegalCodeRaisesTheError : Obligations.IllegalCodeRaisesTheError :=
  fun _ _ _ => ⟨presentGroup_of_illegal, fun _ => presentGroup_of_entry⟩

/-- The codes that the lookup finds are the twelve entries. -/
theorem isNone_lookup_iff {tab : SegTab} {n : Nat} (hn : n < 128) :
    (lookup tab (BitVec.ofNat 7 n)).isNone = true ↔ n ∉ Finset.univ.image fun k => (entry tab k).toNat := by
  rw [Option.isNone_iff_eq_none, lookup_eq_none_iff]
  have hcode : ∀ k, entry tab k = BitVec.ofNat 7 n ↔ (entry tab k).toNat = n := by
    intro k
    rw [← BitVec.toNat_inj, BitVec.toNat_ofNat, Nat.mod_eq_of_lt hn]
  simp [hcode]

/-- Settles O37: the twelve entries are twelve of the 128 codes. -/
theorem exactlyOneHundredSixteenCodesAreIllegal : Obligations.ExactlyOneHundredSixteenCodesAreIllegal := by
  intro tab
  let legal : Finset Nat := Finset.univ.image fun k => (entry tab k).toNat
  have hcard : legal.card = 12 :=
    Finset.card_image_of_injective _ fun j k h => entry_injective tab (BitVec.eq_of_toNat_eq h)
  have hsub : legal ⊆ Finset.range 128 := by
    intro n hn
    obtain ⟨k, -, rfl⟩ := Finset.mem_image.mp hn
    exact Finset.mem_range.mpr (entry tab k).isLt
  have hillegal : ((Finset.range 128).filter fun n => (lookup tab (BitVec.ofNat 7 n)).isNone = true) =
      Finset.range 128 \ legal := by
    ext n
    simp only [Finset.mem_filter, Finset.mem_sdiff, Finset.mem_range]
    exact and_congr_right fun hn => isNone_lookup_iff hn
  rw [← List.toFinset_card_of_nodup (List.nodup_range.filter _), List.toFinset_filter, List.toFinset_range, hillegal,
    Finset.card_sdiff_of_subset hsub, hcard, Finset.card_range]

/-! ### Frames with a code in no entry -/

/-- Settles O24: a frame with such a code is not answered with a Measurement. -/
theorem decodeFailsOnAnIllegalCode : Obligations.DecodeFailsOnAnIllegalCode := by
  intro s f hillegal
  rcases decodeFrame_cases s.build.segtab f with ⟨th, hu, te, on, hth, hhu, hte, hon, -⟩ | ⟨g, hg, hcode, hresult⟩
  · obtain ⟨g, hg, hcode⟩ := hillegal
    simp only [List.mem_cons, List.not_mem_nil, or_false] at hg
    rcases hg with rfl | rfl | rfl | rfl
    · exact absurd hth (hcode th)
    · exact absurd hhu (hcode hu)
    · exact absurd hte (hcode te)
    · exact absurd hon (hcode on)
  · exact ⟨g, hg, hcode, by rw [exec_decode, hresult]; rfl⟩

/-- The first of the four lookups that fails is the answer (R108). -/
theorem decodeFrame_of_first_failing {tab : SegTab} {f : Frame} {before after : List (Byte × Byte)} {msb lsb : Byte}
    (hsplit : digitGroups f = before ++ (msb, lsb) :: after) (hlegal : ∀ g ∈ before, ∃ k, entry tab k = segCode g.1 g.2)
    (hcode : ∀ k, entry tab k ≠ segCode msb lsb) : decodeFrame tab f = .err (groupError msb lsb) := by
  have hfail := decodeGroup_of_illegal hcode
  have hpass : ∀ g ∈ before, ∃ k, decodeGroup tab g.1 g.2 = .tube (tubeAt k) := fun g hg =>
    (hlegal g hg).imp fun k hk => decodeGroup_of_entry hk
  rw [digitGroups] at hsplit
  match before, hpass, hsplit with
  | [], _, hsplit =>
    cases hsplit
    simp [decodeFrame, hfail]
  | [g₁], hpass, hsplit =>
    cases hsplit
    simp only [List.forall_mem_cons] at hpass
    obtain ⟨⟨k₁, h₁⟩, -⟩ := hpass
    simp [decodeFrame, h₁, hfail]
  | [g₁, g₂], hpass, hsplit =>
    cases hsplit
    simp only [List.forall_mem_cons] at hpass
    obtain ⟨⟨k₁, h₁⟩, ⟨k₂, h₂⟩, -⟩ := hpass
    simp [decodeFrame, h₁, h₂, hfail]
  | [g₁, g₂, g₃], hpass, hsplit =>
    cases hsplit
    simp only [List.forall_mem_cons] at hpass
    obtain ⟨⟨k₁, h₁⟩, ⟨k₂, h₂⟩, ⟨k₃, h₃⟩, -⟩ := hpass
    simp [decodeFrame, h₁, h₂, h₃, hfail]
  | _ :: _ :: _ :: _ :: _, _, hsplit => simp at hsplit

/-- Settles O25. -/
theorem firstFailingGroupIsReported : Obligations.FirstFailingGroupIsReported := by
  intro s f before after msb lsb hsplit hlegal hcode
  rw [exec_decode, decodeFrame_of_first_failing hsplit hlegal hcode]
  rfl

/-! ### Ignored bits (R45) -/

/-- The segment codes of a frame's four digit groups. -/
def segCodes (f : Frame) : List SegCode := (digitGroups f).map fun g => segCode g.1 g.2

/-- What DECODE reads of a frame: the four codes, the sign and point bits, and the flags. -/
structure ReadsLike (f g : Frame) : Prop where
  codes : segCodes f = segCodes g
  negative : f.negative = g.negative
  hundred : f.decimalHundred = g.decimalHundred
  ten : f.decimalTen = g.decimalTen
  one : f.decimalOne = g.decimalOne
  flags : frameFlags f = frameFlags g

theorem lowNibble_eq_of_and_eq {x y : Byte} (h : x &&& 0x0F = y &&& 0x0F) : lowNibble x = lowNibble y := by
  have hmask : ∀ b : Byte, lowNibble (b &&& 0x0F) = lowNibble b := by decide +kernel
  rw [← hmask x, h, hmask]

/-- Nothing that DECODE reads is an ignored bit. -/
theorem readsLike_of_usedBits {f g : Frame} (h : usedBits f = usedBits g) : ReadsLike f g := by
  obtain ⟨h0, h1, h2, h3, h4, h5, h6, h7, h8, h9, h10, h11, h12, h13⟩ := Frame.mk.inj h
  have hcode : ∀ {m l m' l' : Byte}, m &&& 0x0F = m' &&& 0x0F → l &&& 0x0F = l' &&& 0x0F →
      segCode m l = segCode m' l' := fun hm hl =>
    segCode_congr (by rw [lowNibble_eq_of_and_eq hm]) (lowNibble_eq_of_and_eq hl)
  have hbit := @getLsbD_eq_of_and_eq
  constructor
  case codes => simp [segCodes, digitGroups, hcode h1 h2, hcode h3 h4, hcode h5 h6, hcode h7 h8]
  case negative => exact hbit h1 3 rfl
  case hundred => exact hbit h3 3 rfl
  case ten => exact hbit h5 3 rfl
  case one => exact hbit h7 3 rfl
  case flags =>
    simp only [frameFlags, hbit h0 3 rfl, hbit h0 2 rfl, hbit h0 1 rfl, hbit h0 0 rfl, hbit h9 3 rfl, hbit h9 2 rfl,
      hbit h9 1 rfl, hbit h9 0 rfl, hbit h10 3 rfl, hbit h10 2 rfl, hbit h10 1 rfl, hbit h10 0 rfl, hbit h11 3 rfl,
      hbit h11 2 rfl, hbit h11 1 rfl, hbit h11 0 rfl, hbit h12 3 rfl, hbit h12 2 rfl, hbit h12 1 rfl, hbit h13 2 rfl,
      hbit h13 1 rfl]

theorem assemble_congr {f g : Frame} (h : ReadsLike f g) (th hu te on : F64) :
    assemble f th hu te on = assemble g th hu te on := by
  simp only [assemble, assembleNumber, h.negative, h.hundred, h.ten, h.one, h.flags]

/-- The same Measurement, or errors with the same code. -/
def Result.Alike (r r' : Result) : Prop := (∀ m, r = .ok m ↔ r' = .ok m) ∧ errorCode? r = errorCode? r'

theorem Result.alike_refl (r : Result) : r.Alike r := ⟨fun _ => Iff.rfl, rfl⟩

theorem alike_groupError {m l m' l' : Byte} (h : segCode m l = segCode m' l') :
    (Result.err (groupError m l)).Alike (.err (groupError m' l')) :=
  ⟨fun _ => by simp, congrArg some h⟩

/-- DECODE looks at nothing else: lookup by lookup the two frames are answered alike. -/
theorem decodeFrame_alike (tab : SegTab) {f g : Frame} (h : ReadsLike f g) :
    (decodeFrame tab f).Alike (decodeFrame tab g) := by
  have hcodes := h.codes
  simp only [segCodes, digitGroups, List.map_cons, List.map_nil, List.cons.injEq, and_true] at hcodes
  obtain ⟨c1, c2, c3, c4⟩ := hcodes
  simp only [decodeFrame, decodeGroup, c1, c2, c3, c4]
  cases lookup tab (segCode g.b1 g.b2) with
  | none => exact alike_groupError c1
  | some th =>
    cases lookup tab (segCode g.b3 g.b4) with
    | none => exact alike_groupError c2
    | some hu =>
      cases lookup tab (segCode g.b5 g.b6) with
      | none => exact alike_groupError c3
      | some te =>
        cases lookup tab (segCode g.b7 g.b8) with
        | none => exact alike_groupError c4
        | some on =>
          simp only [assemble_congr h]
          exact Result.alike_refl _

/-- Settles O27. -/
theorem ignoredBitsDoNotMatter : Obligations.IgnoredBitsDoNotMatter := fun s f g h =>
  ⟨decodeFrame s.build.segtab f, decodeFrame s.build.segtab g, rfl, rfl,
    decodeFrame_alike s.build.segtab (readsLike_of_usedBits h)⟩

end Sys2Proof.Machine
end

section
/-! The readings of a display: what DECODE answers to a frame made by MKFRAME, and integers, zeros and infinities as its
number (R51, R92 to R97, R100 to R103, R109). -/
namespace Sys2Proof.Machine

/-! ### The Measurement of a display -/

/-- The flags that MKFRAME's flag nibbles hold (R44, R51). -/
def displayFlags (d : FrameSpec) : Flags where
  ac := d.b0.getLsbD 3
  dc := d.b0.getLsbD 2
  auto := d.b0.getLsbD 1
  rs232 := d.b0.getLsbD 0
  u := d.b9.getLsbD 3
  n := d.b9.getLsbD 2
  k := d.b9.getLsbD 1
  diode := d.b9.getLsbD 0
  m := d.b10.getLsbD 3
  percent := d.b10.getLsbD 2
  M := d.b10.getLsbD 1
  beep := d.b10.getLsbD 0
  F := d.b11.getLsbD 3
  ohm := d.b11.getLsbD 2
  rel := d.b11.getLsbD 1
  hold := d.b11.getLsbD 0
  A := d.b12.getLsbD 3
  V := d.b12.getLsbD 2
  Hz := d.b12.getLsbD 1
  battery := d.b12.getLsbD 1
  mV := d.b13.getLsbD 2
  celsius := d.b13.getLsbD 1

/-- The raw reading of a display (R93). -/
def displayRaw (d : FrameSpec) : F64 :=
  rawReading (glyphValue (glyphAt d.th)) (glyphValue (glyphAt d.hu)) (glyphValue (glyphAt d.te)) (glyphValue (glyphAt d.on))

/-- The number of a display: its raw reading, signed and scaled (R95 to R97). -/
def displayNumber (d : FrameSpec) : F64 :=
  multiplierScale (displayFlags d) (decimalScale d.p d.q d.w (applySign d.s (displayRaw d)))

/-- The Measurement of a display. -/
def displayed (d : FrameSpec) : Measurement where
  number := displayNumber d
  unit := resolveUnit (displayFlags d)
  flags := displayFlags d

theorem frameFlags_mkFrame (tab : SegTab) (d : FrameSpec) : frameFlags (mkFrame tab d) = displayFlags d := by
  simp [frameFlags, mkFrame, displayFlags]

/-- On every table, DECODE of a display's frame answers the display's Measurement. -/
theorem decodeFrame_mkFrame_eq_displayed (tab : SegTab) (d : FrameSpec) :
    decodeFrame tab (mkFrame tab d) = .ok (displayed d) := by
  rw [decodeFrame_mkFrame, assemble, assembleNumber_mkFrame, frameFlags_mkFrame]
  rfl

theorem exec_decode_mkFrame (s : State) (d : FrameSpec) :
    exec (.decode (mkFrame s.build.segtab d)) s = .next (s.deliver (.ok (displayed d))) := by
  rw [exec_decode, decodeFrame_mkFrame_eq_displayed]

/-- Settles O26. -/
theorem decodeReadsBackTheDisplay : Obligations.DecodeReadsBackTheDisplay :=
  fun s d => ⟨displayed d, exec_decode_mkFrame s d, rfl, rfl, rfl⟩

/-- The glyphs of entries 0 and 10 have the same value (R92). -/
theorem glyphValue_eq_of_blank {j k : Fin 12} (h : j = k ∨ (j ∈ [0, 10] ∧ k ∈ [0, 10])) :
    glyphValue (glyphAt j) = glyphValue (glyphAt k) := by
  have hzero : ∀ i ∈ [(0 : Fin 12), 10], glyphValue (glyphAt i) = F64.zero false := by decide
  rcases h with rfl | ⟨hj, hk⟩
  · rfl
  · rw [hzero j hj, hzero k hk]

/-- Settles O33: the glyphs enter the Measurement by their values only. -/
theorem blankCountsAsZero : Obligations.BlankCountsAsZero := by
  intro s d th hu te on hth hhu hte hon
  let d' : FrameSpec := { d with th := th, hu := hu, te := te, on := on }
  have hraw : displayRaw d' = displayRaw d := by
    simp only [displayRaw, d', glyphValue_eq_of_blank hth, glyphValue_eq_of_blank hhu, glyphValue_eq_of_blank hte,
      glyphValue_eq_of_blank hon]
  have hsame : displayed d' = displayed d := by
    rw [displayed, displayNumber, hraw]
    rfl
  exact ⟨displayed d, exec_decode_mkFrame s d, hsame ▸ exec_decode_mkFrame s d'⟩

/-- Settles O34: the numbers are computed from the display alone. -/
theorem sourceExamplesDecode : Obligations.SourceExamplesDecode := by
  intro tab
  refine ⟨⟨_, decodeFrame_mkFrame_eq_displayed tab _, ?_, rfl⟩, ⟨_, decodeFrame_mkFrame_eq_displayed tab _, ?_⟩,
    ⟨_, decodeFrame_mkFrame_eq_displayed tab _, ?_⟩, ⟨_, decodeFrame_mkFrame_eq_displayed tab _, ?_⟩,
    ⟨_, decodeFrame_mkFrame_eq_displayed tab _, rfl⟩⟩ <;> decide +kernel

/-! ### Raw readings with an overload (R94, R101) -/

/-- A count, or the infinity of an overload. -/
def countValue : Option Nat → F64
  | some n => F64.ofNat n
  | none => F64.inf false

/-- `x` stands for the count `o`, which is at most `bound`. -/
structure Counts (bound : Nat) (x : F64) (o : Option Nat) : Prop where
  value : x = countValue o
  le : ∀ n ∈ o, n ≤ bound

/-- A glyph is a digit, or an overload. -/
theorem counts_glyphValue (g : Glyph) : Counts 9 (glyphValue g) (glyphDigit? g) where
  value := by cases g <;> rfl
  le _ hn := (glyphValue_of_digit hn).2

/-- A weight multiplies a count and leaves an infinity. -/
theorem Counts.fmul {bound : Nat} {x : F64} {o : Option Nat} (h : Counts bound x o) {c : Nat} (hc : 0 < c)
    (hsmall : bound < 2 ^ 53 ∧ c < 2 ^ 53) : Counts (bound * c) (x.fmul (F64.ofNat c)) (o.map (· * c)) := by
  obtain ⟨rfl, hle⟩ := h
  cases o with
  | none => exact ⟨F64.inf_fmul_ofNat false hsmall.2 hc, by simp⟩
  | some n =>
    have hn : n ≤ bound := hle n rfl
    exact ⟨F64.fmul_ofNat (by omega) hsmall.2, by simpa using Nat.mul_le_mul_right c hn⟩

/-- Counts add up, and an infinity absorbs them. -/
theorem Counts.fadd {bound bound' : Nat} {x y : F64} {o p : Option Nat} (hx : Counts bound x o) (hy : Counts bound' y p)
    (hsmall : bound + bound' < 2 ^ 53) : Counts (bound + bound') (x.fadd y) (Option.map₂ (· + ·) o p) := by
  obtain ⟨rfl, hle⟩ := hx
  obtain ⟨rfl, hle'⟩ := hy
  cases o with
  | none =>
    refine ⟨?_, by simp⟩
    cases p with
    | none => exact F64.inf_fadd_inf (F64.parts_inf _) (F64.parts_inf _)
    | some n =>
      have hn : n ≤ bound' := hle' n rfl
      obtain ⟨j, hj⟩ := F64.parts_ofNat (n := n) (by omega)
      exact F64.inf_fadd_fin (F64.parts_inf _) hj
  | some m =>
    have hm : m ≤ bound := hle m rfl
    cases p with
    | none =>
      obtain ⟨j, hj⟩ := F64.parts_ofNat (n := m) (by omega)
      exact ⟨F64.fin_fadd_inf hj (F64.parts_inf _), by simp⟩
    | some n =>
      have hn : n ≤ bound' := hle' n rfl
      exact ⟨F64.fadd_ofNat (by omega) (by omega), by simpa using Nat.add_le_add hm hn⟩

/-- The displayed integer as the sum that R93 writes, none if a term is none. -/
theorem displayInteger?_eq_map₂ (th hu te on : Glyph) :
    displayInteger? th hu te on =
      Option.map₂ (· + ·) (Option.map₂ (· + ·) (Option.map₂ (· + ·) ((glyphDigit? th).map (· * 1000))
        ((glyphDigit? hu).map (· * 100))) ((glyphDigit? te).map (· * 10))) (glyphDigit? on) := by
  rw [displayInteger?]
  cases glyphDigit? th with
  | none => rfl
  | some a =>
    cases glyphDigit? hu with
    | none => rfl
    | some b =>
      cases glyphDigit? te with
      | none => rfl
      | some c =>
        cases glyphDigit? on with
        | none => rfl
        | some d => simp [Nat.mul_comm]

/-- The raw reading of four glyphs is the displayed integer, or an infinity if there is none (R94, R101). -/
theorem counts_rawReading (th hu te on : Glyph) :
    Counts 9999 (rawReading (glyphValue th) (glyphValue hu) (glyphValue te) (glyphValue on))
      (displayInteger? th hu te on) := by
  rw [displayInteger?_eq_map₂]
  have hth := (counts_glyphValue th).fmul (c := 1000) (by decide) (by decide)
  have hhu := (counts_glyphValue hu).fmul (c := 100) (by decide) (by decide)
  have hte := (counts_glyphValue te).fmul (c := 10) (by decide) (by decide)
  exact ((hth.fadd hhu (by decide)).fadd hte (by decide)).fadd (counts_glyphValue on) (by decide)

theorem displayInteger?_of_overload {th hu te on : Glyph}
    (h : th = .overload ∨ hu = .overload ∨ te = .overload ∨ on = .overload) : displayInteger? th hu te on = none := by
  rw [displayInteger?_eq_map₂]
  rcases h with rfl | rfl | rfl | rfl <;> simp [glyphDigit?]

/-! ### What the scaling of R96 and R97 can do -/

/-- The powers of ten that scale are exact literals (R96, R97). -/
theorem ten_pow_lt {k : Nat} (h : k ≤ 9) : 10 ^ k < 2 ^ 53 :=
  lt_of_le_of_lt (Nat.pow_le_pow_right (by decide) h) (by decide)

/-- Everything the decimal scaling can do, with the exponent of R99: nothing, or one division. -/
theorem decimalScale_cases (hundred ten one : Bool) :
    (pointExponent hundred ten one = 0 ∧ ∀ x, decimalScale hundred ten one x = x) ∨
      (pointExponent hundred ten one ≤ 3 ∧
        ∀ x, decimalScale hundred ten one x = x.fdiv (F64.ofNat (10 ^ pointExponent hundred ten one))) := by
  cases hundred with
  | true => exact .inr ⟨show 3 ≤ 3 by decide, fun _ => rfl⟩
  | false =>
    cases ten with
    | true => exact .inr ⟨show 2 ≤ 3 by decide, fun _ => rfl⟩
    | false =>
      cases one with
      | true => exact .inr ⟨by decide, fun _ => rfl⟩
      | false => exact .inl ⟨rfl, fun _ => rfl⟩

/-- Everything the multiplier scaling can do, with the exponent of R99: nothing, one division or one multiplication. -/
theorem multiplierScale_cases (g : Flags) :
    (scaleExponent g = 0 ∧ ∀ x, multiplierScale g x = x) ∨
      (∃ k : Nat, k ≤ 9 ∧ scaleExponent g = -k ∧ ∀ x, multiplierScale g x = x.fdiv (F64.ofNat (10 ^ k))) ∨
      (∃ k : Nat, k ≤ 9 ∧ scaleExponent g = k ∧ ∀ x, multiplierScale g x = x.fmul (F64.ofNat (10 ^ k))) := by
  unfold scaleExponent multiplierScale
  split_ifs
  · exact .inr (.inl ⟨9, by decide, rfl, fun _ => rfl⟩)
  · exact .inr (.inl ⟨6, by decide, rfl, fun _ => rfl⟩)
  · exact .inr (.inl ⟨3, by decide, rfl, fun _ => rfl⟩)
  · exact .inr (.inr ⟨3, by decide, rfl, fun _ => rfl⟩)
  · exact .inr (.inr ⟨6, by decide, rfl, fun _ => rfl⟩)
  · exact .inl ⟨rfl, fun _ => rfl⟩

/-- What every division and multiplication by a power of ten keeps, the scaling keeps. -/
theorem scaling_keeps {P : F64 → Prop} (hdiv : ∀ x k, k ≤ 9 → P x → P (x.fdiv (F64.ofNat (10 ^ k))))
    (hmul : ∀ x k, k ≤ 9 → P x → P (x.fmul (F64.ofNat (10 ^ k)))) (g : Flags) (hundred ten one : Bool) {x : F64}
    (hx : P x) : P (multiplierScale g (decimalScale hundred ten one x)) := by
  have hpoint : P (decimalScale hundred ten one x) := by
    rcases decimalScale_cases hundred ten one with ⟨-, h⟩ | ⟨hk, h⟩ <;> rw [h]
    · exact hx
    · exact hdiv x _ (by omega) hx
  rcases multiplierScale_cases g with ⟨-, h⟩ | ⟨k, hk, -, h⟩ | ⟨k, hk, -, h⟩ <;> rw [h]
  · exact hpoint
  · exact hdiv _ k hk hpoint
  · exact hmul _ k hk hpoint

theorem scaling_inf (g : Flags) (hundred ten one neg : Bool) :
    multiplierScale g (decimalScale hundred ten one (F64.inf neg)) = F64.inf neg :=
  scaling_keeps (P := (· = F64.inf neg)) (fun _ _ hk hx => hx ▸ F64.inf_fdiv_ofNat neg (ten_pow_lt hk) (by positivity))
    (fun _ _ hk hx => hx ▸ F64.inf_fmul_ofNat neg (ten_pow_lt hk) (by positivity)) g hundred ten one rfl

theorem scaling_zero (g : Flags) (hundred ten one neg : Bool) :
    multiplierScale g (decimalScale hundred ten one (F64.zero neg)) = F64.zero neg :=
  scaling_keeps (P := (· = F64.zero neg)) (fun _ _ hk hx => hx ▸ F64.zero_fdiv_ofNat neg (ten_pow_lt hk) (by positivity))
    (fun _ _ hk hx => hx ▸ F64.zero_fmul_ofNat neg (ten_pow_lt hk) (by positivity)) g hundred ten one rfl

theorem isNumber_scaling (g : Flags) (hundred ten one : Bool) {x : F64} (hx : x.isNumber = true) :
    (multiplierScale g (decimalScale hundred ten one x)).isNumber = true := by
  refine scaling_keeps (P := (·.isNumber = true)) ?_ ?_ g hundred ten one hx
  · intro y k hk hy
    obtain ⟨m, e, hp, hm⟩ := F64.parts_ofNat_pos (ten_pow_lt hk) (by positivity)
    exact F64.isNumber_fdiv hy hp hm
  · intro y k hk hy
    obtain ⟨m, e, hp, hm⟩ := F64.parts_ofNat_pos (ten_pow_lt hk) (by positivity)
    exact F64.isNumber_fmul hy hp hm

theorem applySign_inf (neg : Bool) : applySign neg (F64.inf false) = F64.inf neg := by
  cases neg <;> simp [applySign]

theorem applySign_zero (neg : Bool) : applySign neg (F64.zero false) = F64.zero neg := by
  cases neg <;> simp [applySign]

theorem isNumber_applySign (neg : Bool) {x : F64} (hx : x.isNumber = true) : (applySign neg x).isNumber = true := by
  cases neg with
  | false => exact hx
  | true => exact F64.isNumber_fneg hx

theorem isNumber_countValue (o : Option Nat) : (countValue o).isNumber = true := by
  cases o with
  | none => exact F64.isNumber_inf false
  | some n => exact F64.isNumber_round false n 1 0

/-! ### The statements -/

/-- Settles O28: nothing is done to the raw reading, which is the integer. -/
theorem integerReadingIsExact : Obligations.IntegerReadingIsExact := by
  intro s d reading hreading hs hp hq hw hk hn hu hM hm hmV
  obtain ⟨hraw, hle⟩ := rawReading_of_digits hreading
  have hnumber : (displayed d).number = F64.ofNat reading := by
    simp only [displayed, displayNumber, displayRaw, hraw, displayFlags, multiplierScale, decimalScale, applySign, hs, hp,
      hq, hw, hk, hn, hu, hM, hm, hmV, Bool.or_self, Bool.false_eq_true, if_false]
  exact ⟨displayed d, exec_decode_mkFrame s d, hnumber, by rw [hnumber, F64.toRat?_ofNat (by omega)], hle⟩

/-- Settles O30: the raw reading is an infinity, and no later operation leaves it. -/
theorem overloadReadsInfinity : Obligations.OverloadReadsInfinity := by
  intro s d hoverload
  have hraw : displayRaw d = F64.inf false := by
    rw [displayRaw, (counts_rawReading _ _ _ _).value, displayInteger?_of_overload hoverload]
    rfl
  exact ⟨displayed d, exec_decode_mkFrame s d, by rw [displayed, displayNumber, hraw, applySign_inf, scaling_inf]⟩

/-- Settles O32: the raw reading is a zero, and no later operation leaves the zeros. -/
theorem zeroReadingIsAZero : Obligations.ZeroReadingIsAZero := by
  intro s d hzero
  have hraw : displayRaw d = F64.zero false := (rawReading_of_digits hzero).1
  have hnumber : (displayed d).number = F64.zero d.s := by
    rw [displayed, displayNumber, hraw, applySign_zero, scaling_zero]
  refine ⟨displayed d, exec_decode_mkFrame s d, ?_⟩
  rw [hnumber]
  cases d.s with
  | false => exact .inl rfl
  | true => exact .inr rfl

/-- No Measurement of any frame has a NaN as its number. -/
theorem isNumber_of_decodeFrame {tab : SegTab} {f : Frame} {m : Measurement} (h : decodeFrame tab f = .ok m) :
    m.number.isNumber = true := by
  rcases decodeFrame_cases tab f with ⟨th, hu, te, on, -, -, -, -, hok⟩ | ⟨g, -, -, herr⟩
  · obtain rfl := Result.ok.inj (hok.symm.trans h)
    refine isNumber_scaling _ _ _ _ (isNumber_applySign _ ?_)
    have hraw := (counts_rawReading (glyphAt th) (glyphAt hu) (glyphAt te) (glyphAt on)).value
    exact hraw ▸ isNumber_countValue _
  · cases herr.symm.trans h

/-- Settles O31. -/
theorem numberIsNeverNaN : Obligations.NumberIsNeverNaN := by
  intro s t f m h hresults
  cases h
  have hresult : decodeFrame s.build.segtab f = .ok m := by simpa using hresults
  exact isNumber_of_decodeFrame hresult

end Sys2Proof.Machine
end

section
/-! How far one rounded division or multiplication is from the exact value, and the ideal value of a frame (R99). -/
namespace Sys2Proof

/-! ### Finite values by sign and magnitude -/

/-- `x` is finite, with the given sign and magnitude. -/
def F64.HasValue (x : F64) (neg : Bool) (v : ℚ) : Prop :=
  ∃ (m : Nat) (e : Int), x.parts = .fin neg m e ∧ (m : ℚ) * (2 : ℚ) ^ e = v

theorem F64.HasValue.toRat? {x : F64} {neg : Bool} {v : ℚ} (h : x.HasValue neg v) :
    x.toRat? = some ((if neg then -1 else 1) * v) := by
  obtain ⟨m, e, hp, rfl⟩ := h
  rw [F64.toRat?, hp]
  cases neg <;> simp [F64.signed]

theorem F64.hasValue_ofNat {n : Nat} (h : n < 2 ^ 53) : (F64.ofNat n).HasValue false n := by
  obtain ⟨j, hj⟩ := F64.parts_ofNat h
  refine ⟨_, _, hj, ?_⟩
  rw [zpow_neg, zpow_natCast]
  push_cast
  field_simp

theorem F64.HasValue.fneg {x : F64} {neg : Bool} {v : ℚ} (h : x.HasValue neg v) : x.fneg.HasValue (!neg) v := by
  obtain ⟨m, e, hp, hv⟩ := h
  exact ⟨m, e, F64.parts_fneg hp, hv⟩

/-- A significand has at most 53 bits. -/
theorem F64.lt_of_parts {x : F64} {neg : Bool} {m : Nat} {e : Int} (h : x.parts = .fin neg m e) : m < 2 ^ 53 := by
  have hfrac : x.fracField < 2 ^ 52 := Nat.mod_lt _ (by decide)
  unfold F64.parts at h
  split_ifs at h
  all_goals cases h; omega

/-! ### One rounding -/

/-- Within a relative error of `2^-53`, the bound of one rounding. -/
def F64.Near (v w : ℚ) : Prop := |v - w| ≤ w * (2 : ℚ) ^ (-53 : Int)

/-- A zero, or a value within `k` powers of ten of 1. -/
def F64.Within (k : Nat) (v : ℚ) : Prop := v = 0 ∨ ((10 : ℚ) ^ (-(k : Int)) ≤ v ∧ v ≤ (10 : ℚ) ^ (k : Int))

theorem F64.Within.nonneg {k : Nat} {v : ℚ} (h : F64.Within k v) : 0 ≤ v := by
  rcases h with rfl | ⟨hlo, -⟩
  · exact le_refl 0
  · exact le_trans (by positivity) hlo

theorem F64.Within.mono {j k : Nat} {v : ℚ} (h : F64.Within j v) (hjk : j ≤ k) : F64.Within k v := by
  refine h.imp_right fun ⟨hlo, hhi⟩ => ⟨le_trans ?_ hlo, le_trans hhi ?_⟩ <;>
    exact zpow_le_zpow_right₀ (by norm_num) (by omega)

theorem F64.Within.scale {j k : Nat} {v : ℚ} {i : Int} (h : F64.Within k v) (hi : -(j : Int) ≤ i ∧ i ≤ j) :
    F64.Within (k + j) (v * (10 : ℚ) ^ i) := by
  rcases h with rfl | ⟨hlo, hhi⟩
  · exact .inl (zero_mul _)
  · have hlo' : (10 : ℚ) ^ (-(j : Int)) ≤ (10 : ℚ) ^ i := zpow_le_zpow_right₀ (by norm_num) hi.1
    have hhi' : (10 : ℚ) ^ i ≤ (10 : ℚ) ^ (j : Int) := zpow_le_zpow_right₀ (by norm_num) hi.2
    have hv : 0 ≤ v := le_trans (by positivity) hlo
    right
    rw [Nat.cast_add, neg_add, zpow_add₀ (by norm_num), zpow_add₀ (by norm_num)]
    exact ⟨by gcongr, by gcongr⟩

/-- What is near a value is within one power of ten more. -/
theorem F64.Near.within {k : Nat} {r v : ℚ} (hr : F64.Near r v) (hv : F64.Within k v) : F64.Within (k + 1) r := by
  have herr : |r - v| ≤ v * (1 / 2) := le_trans hr (mul_le_mul_of_nonneg_left (by norm_num) hv.nonneg)
  obtain ⟨hlo, hhi⟩ := abs_le.mp herr
  rcases hv with rfl | ⟨hge, hle⟩
  · exact .inl (by linarith)
  · right
    have hlo10 : (10 : ℚ) ^ (-((1 : Nat) : Int)) = 1 / 10 := by norm_num
    have hhi10 : (10 : ℚ) ^ (((1 : Nat) : Int)) = 10 := by norm_num
    have hpos : (0 : ℚ) < (10 : ℚ) ^ (-(k : Int)) := by positivity
    rw [Nat.cast_add, neg_add, zpow_add₀ (by norm_num), zpow_add₀ (by norm_num), hlo10, hhi10]
    exact ⟨by linarith, by linarith⟩

/-- The rounding of a value in range has the sign asked for, and is near the value. -/
theorem F64.round_near (neg : Bool) {num den : Nat} {e : Int} (hd : 0 < den) (hnum : num = 0 ∨ den ≤ num)
    (hrange : F64.Within 20 ((num : ℚ) / den * (2 : ℚ) ^ e)) :
    ∃ v, (F64.round neg num den e).HasValue neg v ∧ F64.Near v ((num : ℚ) / den * (2 : ℚ) ^ e) := by
  rcases hnum with rfl | hle
  · refine ⟨0, ⟨0, -1074, ?_, by simp⟩, by simp [F64.Near]⟩
    rw [F64.round, if_pos rfl, F64.parts_zero]
  · obtain ⟨hlow, hhigh⟩ := F64.log2_quotient hd hle
    generalize hL : Nat.log2 (num / den) = L at hlow hhigh
    have hd' : (0 : ℚ) < den := by exact_mod_cast hd
    have hlow' : (2 : ℚ) ^ (L : Int) ≤ (num : ℚ) / den := by
      rw [le_div_iff₀ hd', zpow_natCast]
      exact_mod_cast hlow
    have hhigh' : (num : ℚ) / den < (2 : ℚ) ^ ((L : Int) + 1) := by
      rw [div_lt_iff₀ hd', ← Nat.cast_succ, zpow_natCast]
      exact_mod_cast hhigh
    have hpos : (0 : ℚ) < (2 : ℚ) ^ e := by positivity
    have hne : (num : ℚ) / den * (2 : ℚ) ^ e ≠ 0 := by
      have hquot : (0 : ℚ) < (num : ℚ) / den := lt_of_lt_of_le (by positivity) hlow'
      positivity
    obtain ⟨hge, hle2⟩ := hrange.resolve_left hne
    have hmin : (2 : ℚ) ^ (-200 : Int) ≤ (10 : ℚ) ^ (-((20 : Nat) : Int)) := by norm_num
    have hmax : (10 : ℚ) ^ ((20 : Nat) : Int) ≤ (2 : ℚ) ^ (200 : Int) := by norm_num
    have h1 : (2 : ℚ) ^ (-200 : Int) < (2 : ℚ) ^ ((L : Int) + 1 + e) := by
      rw [zpow_add₀ (by norm_num) _ e]
      exact lt_of_le_of_lt (hmin.trans hge) (by gcongr)
    have h2 : (2 : ℚ) ^ ((L : Int) + e) ≤ (2 : ℚ) ^ (200 : Int) := by
      rw [zpow_add₀ (by norm_num)]
      exact le_trans (by gcongr) (hle2.trans hmax)
    have h3 : -200 < (L : Int) + 1 + e := (zpow_lt_zpow_iff_right₀ (by norm_num)).mp h1
    have h4 : (L : Int) + e ≤ 200 := (zpow_le_zpow_iff_right₀ (by norm_num)).mp h2
    obtain ⟨m, e', hp, herr⟩ := F64.round_error neg hd hle (e := e) (by omega) (by omega)
    exact ⟨_, ⟨m, e', hp, rfl⟩, herr⟩

/-- One division of a value by a value other than zero. -/
theorem F64.HasValue.fdiv {x y : F64} {a b : Bool} {v w : ℚ} (hx : x.HasValue a v) (hy : y.HasValue b w) (hw : w ≠ 0)
    (hrange : F64.Within 20 (v / w)) : ∃ r, (x.fdiv y).HasValue (a ^^ b) r ∧ F64.Near r (v / w) := by
  obtain ⟨m, e, hpx, rfl⟩ := hx
  obtain ⟨m', e', hpy, rfl⟩ := hy
  have hm' : m' ≠ 0 := by
    rintro rfl
    simp at hw
  have hlt := F64.lt_of_parts hpy
  have hnum : m * 2 ^ 108 = 0 ∨ m' ≤ m * 2 ^ 108 := by omega
  have hquot : (m : ℚ) * (2 : ℚ) ^ e / (m' * (2 : ℚ) ^ e') =
      ((m * 2 ^ 108 : Nat) : ℚ) / m' * (2 : ℚ) ^ (e - e' - 108) := by
    rw [zpow_sub₀ (by norm_num), zpow_sub₀ (by norm_num)]
    push_cast
    field_simp
  have hround : x.fdiv y = F64.round (a ^^ b) (m * 2 ^ 108) m' (e - e' - 108) := by
    simp only [F64.fdiv, hpx, hpy, if_neg hm']
  rw [hquot] at hrange ⊢
  rw [hround]
  exact F64.round_near _ (by omega) hnum hrange

/-- One multiplication. -/
theorem F64.HasValue.fmul {x y : F64} {a b : Bool} {v w : ℚ} (hx : x.HasValue a v) (hy : y.HasValue b w)
    (hrange : F64.Within 20 (v * w)) : ∃ r, (x.fmul y).HasValue (a ^^ b) r ∧ F64.Near r (v * w) := by
  obtain ⟨m, e, hpx, rfl⟩ := hx
  obtain ⟨m', e', hpy, rfl⟩ := hy
  have hprod : (m : ℚ) * (2 : ℚ) ^ e * (m' * (2 : ℚ) ^ e') = ((m * m' : Nat) : ℚ) / (1 : Nat) * (2 : ℚ) ^ (e + e') := by
    rw [zpow_add₀ (by norm_num)]
    push_cast
    ring
  have hround : x.fmul y = F64.round (a ^^ b) (m * m') 1 (e + e') := by
    simp only [F64.fmul, hpx, hpy]
  rw [hprod] at hrange ⊢
  rw [hround]
  exact F64.round_near _ Nat.one_pos (by omega) hrange

/-! ### Scaling by powers of ten -/

/-- A literal of the scaling divides. -/
theorem F64.HasValue.fdiv_ten_pow {x : F64} {neg : Bool} {v : ℚ} {k : Nat} (hx : x.HasValue neg v) (hv : F64.Within 11 v)
    (hk : k ≤ 9) :
    ∃ r, (x.fdiv (F64.ofNat (10 ^ k))).HasValue neg r ∧ F64.Near r (v * (10 : ℚ) ^ (-(k : Int))) := by
  have hquot : v / ((10 ^ k : Nat) : ℚ) = v * (10 : ℚ) ^ (-(k : Int)) := by
    rw [zpow_neg, zpow_natCast, div_eq_mul_inv, Nat.cast_pow, Nat.cast_ofNat]
  have hrange : F64.Within 20 (v * (10 : ℚ) ^ (-(k : Int))) := hv.scale (j := 9) ⟨by omega, by omega⟩
  rw [← hquot] at hrange ⊢
  simpa using hx.fdiv (F64.hasValue_ofNat (Machine.ten_pow_lt hk)) (by positivity) hrange

/-- A literal of the scaling multiplies. -/
theorem F64.HasValue.fmul_ten_pow {x : F64} {neg : Bool} {v : ℚ} {k : Nat} (hx : x.HasValue neg v) (hv : F64.Within 11 v)
    (hk : k ≤ 9) :
    ∃ r, (x.fmul (F64.ofNat (10 ^ k))).HasValue neg r ∧ F64.Near r (v * (10 : ℚ) ^ (k : Int)) := by
  have hprod : v * ((10 ^ k : Nat) : ℚ) = v * (10 : ℚ) ^ (k : Int) := by
    rw [zpow_natCast, Nat.cast_pow, Nat.cast_ofNat]
  have hrange : F64.Within 20 (v * (10 : ℚ) ^ (k : Int)) := hv.scale (j := 9) ⟨by omega, by omega⟩
  rw [← hprod] at hrange ⊢
  simpa using hx.fmul (F64.hasValue_ofNat (Machine.ten_pow_lt hk)) hrange

theorem F64.near_refl {v : ℚ} (hv : 0 ≤ v) : F64.Near v v := by
  rw [F64.Near, sub_self, abs_zero]
  positivity

/-- Two roundings, with an exact scale between them. -/
theorem F64.Near.two_roundings {r₁ r₂ v t : ℚ} (h₁ : F64.Near r₁ v) (h₂ : F64.Near r₂ (r₁ * t)) (ht : 0 ≤ t) :
    |r₂ - v * t| ≤ v * t * ((2 : ℚ) ^ (-52 : Int) + (2 : ℚ) ^ (-106 : Int)) := by
  have hu : (2 : ℚ) ^ (-52 : Int) + (2 : ℚ) ^ (-106 : Int) =
      2 * (2 : ℚ) ^ (-53 : Int) + (2 : ℚ) ^ (-53 : Int) * (2 : ℚ) ^ (-53 : Int) := by norm_num
  rw [hu]
  unfold F64.Near at h₁ h₂
  have hpos : (0 : ℚ) ≤ (2 : ℚ) ^ (-53 : Int) := by positivity
  generalize (2 : ℚ) ^ (-53 : Int) = u at h₁ h₂ hpos ⊢
  have hr₁ : r₁ ≤ v + v * u := by linarith [(abs_le.mp h₁).2]
  calc |r₂ - v * t| = |(r₂ - r₁ * t) + (r₁ - v) * t| := by congr 1; ring
    _ ≤ |r₂ - r₁ * t| + |(r₁ - v) * t| := abs_add_le _ _
    _ ≤ r₁ * t * u + v * u * t := by
      rw [abs_mul, abs_of_nonneg ht]
      gcongr
    _ ≤ (v + v * u) * t * u + v * u * t := by gcongr
    _ = v * t * (2 * u + u * u) := by ring

namespace Machine

/-- The decimal scaling rounds at most once. -/
theorem decimalScale_near (hundred ten one : Bool) {x : F64} {neg : Bool} {v : ℚ} (hx : x.HasValue neg v)
    (hv : F64.Within 4 v) :
    ∃ r, (decimalScale hundred ten one x).HasValue neg r ∧
      F64.Near r (v * (10 : ℚ) ^ (-(pointExponent hundred ten one : Int))) := by
  rcases decimalScale_cases hundred ten one with ⟨hp, h⟩ | ⟨hp, h⟩ <;> rw [h]
  · exact ⟨v, hx, by simpa [hp] using F64.near_refl hv.nonneg⟩
  · exact hx.fdiv_ten_pow (hv.mono (by decide)) (by omega)

/-- The multiplier scaling rounds at most once. -/
theorem multiplierScale_near (g : Flags) {x : F64} {neg : Bool} {v : ℚ} (hx : x.HasValue neg v) (hv : F64.Within 11 v) :
    ∃ r, (multiplierScale g x).HasValue neg r ∧ F64.Near r (v * (10 : ℚ) ^ scaleExponent g) := by
  rcases multiplierScale_cases g with ⟨he, h⟩ | ⟨k, hk, he, h⟩ | ⟨k, hk, he, h⟩ <;> rw [h, he]
  · exact ⟨v, hx, by simpa using F64.near_refl hv.nonneg⟩
  · exact hx.fdiv_ten_pow hv hk
  · exact hx.fmul_ten_pow hv hk

/-- The number of a frame is the ideal value, rounded at most twice. -/
theorem scaling_near (g : Flags) (hundred ten one : Bool) {x : F64} {neg : Bool} {v : ℚ} (hx : x.HasValue neg v)
    (hv : F64.Within 4 v) :
    ∃ r, (multiplierScale g (decimalScale hundred ten one x)).HasValue neg r ∧
      |r - v * (10 : ℚ) ^ (scaleExponent g - (pointExponent hundred ten one : Int))| ≤
        v * (10 : ℚ) ^ (scaleExponent g - (pointExponent hundred ten one : Int)) *
          ((2 : ℚ) ^ (-52 : Int) + (2 : ℚ) ^ (-106 : Int)) := by
  have hp : pointExponent hundred ten one ≤ 3 := by
    rcases decimalScale_cases hundred ten one with ⟨hp, -⟩ | ⟨hp, -⟩ <;> omega
  obtain ⟨r₁, hr₁, hnear₁⟩ := decimalScale_near hundred ten one hx hv
  have hwithin₁ : F64.Within 8 r₁ := hnear₁.within (hv.scale (j := 3) ⟨by omega, by omega⟩)
  obtain ⟨r₂, hr₂, hnear₂⟩ := multiplierScale_near g hr₁ (hwithin₁.mono (by decide))
  refine ⟨r₂, hr₂, ?_⟩
  have hsplit : v * (10 : ℚ) ^ (scaleExponent g - (pointExponent hundred ten one : Int)) =
      v * (10 : ℚ) ^ (-(pointExponent hundred ten one : Int)) * (10 : ℚ) ^ scaleExponent g := by
    rw [mul_assoc, ← zpow_add₀ (by norm_num)]
    congr 2
    omega
  rw [hsplit]
  exact hnear₁.two_roundings hnear₂ (by positivity)

theorem hasValue_applySign (neg : Bool) {x : F64} {v : ℚ} (hx : x.HasValue false v) :
    (applySign neg x).HasValue neg v := by
  cases neg with
  | false => exact hx
  | true => exact hx.fneg

/-- A frame that has an ideal value has four codes in the table and a displayed integer. -/
theorem idealReading?_spec {tab : SegTab} {f : Frame} {i : Ideal} (h : idealReading? tab f = some i) :
    ∃ th hu te on, decodeFrame tab f =
        .ok (assemble f (tubeAt th).value (tubeAt hu).value (tubeAt te).value (tubeAt on).value) ∧
      displayInteger? (glyphAt th) (glyphAt hu) (glyphAt te) (glyphAt on) = some i.reading ∧
      i.negative = f.negative ∧ i.point = pointExponent f.decimalHundred f.decimalTen f.decimalOne ∧
      i.scale = scaleExponent (frameFlags f) := by
  rcases decodeFrame_cases tab f with ⟨th, hu, te, on, hth, hhu, hte, hon, hok⟩ | ⟨g, hg, hcode, -⟩
  · refine ⟨th, hu, te, on, hok, ?_⟩
    simp only [idealReading?, decodeGroup_of_entry hth, decodeGroup_of_entry hhu, decodeGroup_of_entry hte,
      decodeGroup_of_entry hon, tubeAt] at h
    cases hreading : displayInteger? (glyphAt th) (glyphAt hu) (glyphAt te) (glyphAt on) with
    | none => simp [hreading] at h
    | some reading =>
      simp only [hreading, Option.some.injEq] at h
      subst h
      exact ⟨rfl, rfl, rfl, rfl⟩
  · have herr := decodeGroup_of_illegal hcode
    unfold idealReading? at h
    split at h
    · rename_i h1 h2 h3 h4
      simp only [digitGroups, List.mem_cons, List.not_mem_nil, or_false] at hg
      rcases hg with rfl | rfl | rfl | rfl
      · cases herr.symm.trans h1
      · cases herr.symm.trans h2
      · cases herr.symm.trans h3
      · cases herr.symm.trans h4
    · cases h

/-- Settles O29: the raw reading is the displayed integer exactly, and two roundings follow. -/
theorem numberIsNearTheIdealValue : Obligations.NumberIsNearTheIdealValue := by
  intro s f i hideal
  obtain ⟨th, hu, te, on, hok, hreading, hnegative, hpoint, hscale⟩ := idealReading?_spec hideal
  obtain ⟨hraw, hle⟩ := rawReading_of_digits hreading
  have hvalue : (F64.ofNat i.reading).HasValue false i.reading := F64.hasValue_ofNat (by omega)
  have hwithin : F64.Within 4 (i.reading : ℚ) := by
    rcases Nat.eq_zero_or_pos i.reading with h0 | hpos
    · exact .inl (by exact_mod_cast h0)
    · have h1 : (1 : ℚ) ≤ i.reading := by exact_mod_cast hpos
      have h2 : (i.reading : ℚ) ≤ 9999 := by exact_mod_cast hle
      exact .inr ⟨le_trans (by norm_num) h1, le_trans h2 (by norm_num)⟩
  obtain ⟨r, hr, herr⟩ := scaling_near (frameFlags f) f.decimalHundred f.decimalTen f.decimalOne
    (hasValue_applySign f.negative hvalue) hwithin
  have hnumber : assembleNumber f (tubeAt th).value (tubeAt hu).value (tubeAt te).value (tubeAt on).value =
      multiplierScale (frameFlags f) (decimalScale f.decimalHundred f.decimalTen f.decimalOne
        (applySign f.negative (F64.ofNat i.reading))) := by
    rw [← hraw]
    rfl
  refine ⟨_, _, by rw [exec_decode, hok], by rw [assemble_number, hnumber]; exact hr.toRat?, ?_⟩
  have hnonneg : 0 ≤ (i.reading : ℚ) * (10 : ℚ) ^ (i.scale - (i.point : Int)) := by positivity
  have hsign : |if f.negative then (-1 : ℚ) else 1| = 1 := by split <;> simp
  rw [Ideal.value, hnegative, mul_assoc, ← mul_sub, abs_mul, abs_mul, hsign, one_mul, one_mul, abs_of_nonneg hnonneg,
    hscale, hpoint]
  exact herr

end Machine
end Sys2Proof
end

section
/-! What a consumer receives (R123), and the result bus and the input ports (R107, R111, R126). -/
namespace Sys2Proof.Machine

/-! ### ABORT_BATCH (R123) -/

theorem abortBatch_map_ok (ms : List Measurement) : abortBatch (ms.map Result.ok) = .ok ms := by
  induction ms with
  | nil => rfl
  | cons m ms ih => rw [List.map_cons, abortBatch, ih]

theorem abortBatch_map_ok_err (ms : List Measurement) (e : DecodeError) (rest : List Result) :
    abortBatch (ms.map Result.ok ++ .err e :: rest) = .err e := by
  induction ms with
  | nil => rfl
  | cons m ms ih => rw [List.map_cons, List.cons_append, abortBatch, ih]

/-- Every list of results is Measurements only, or Measurements up to a first error. -/
theorem results_cases : ∀ (rs : List Result),
    (∃ ms : List Measurement, rs = ms.map Result.ok) ∨
      ∃ (ms : List Measurement) (e : DecodeError) (rest : List Result), rs = ms.map Result.ok ++ .err e :: rest
  | [] => .inl ⟨[], rfl⟩
  | .err e :: rest => .inr ⟨[], e, rest, rfl⟩
  | .ok m :: rs => by
    rcases results_cases rs with ⟨ms, rfl⟩ | ⟨ms, e, rest, rfl⟩
    · exact .inl ⟨m :: ms, rfl⟩
    · exact .inr ⟨m :: ms, e, rest, rfl⟩

/-- Settles O39: the two shapes of a list of results are told apart by what ABORT_BATCH answers. -/
theorem abortBatchReportsTheFirstError : Obligations.AbortBatchReportsTheFirstError := by
  intro rs
  refine ⟨fun ms => ⟨fun h => ?_, fun h => h ▸ abortBatch_map_ok ms⟩, fun e => ⟨fun h => ?_, ?_⟩⟩
  · rcases results_cases rs with ⟨ms', rfl⟩ | ⟨ms', e, rest, rfl⟩
    · rw [abortBatch_map_ok] at h
      rw [BatchResult.ok.inj h]
    · rw [abortBatch_map_ok_err] at h
      cases h
  · rcases results_cases rs with ⟨ms', rfl⟩ | ⟨ms', e', rest, rfl⟩
    · rw [abortBatch_map_ok] at h
      cases h
    · rw [abortBatch_map_ok_err] at h
      exact ⟨ms', rest, by rw [BatchResult.err.inj h]⟩
  · rintro ⟨ms, rest, rfl⟩
    exact abortBatch_map_ok_err ms e rest

/-! ### The result bus (R107, R111) -/

theorem outBeats_cons_cons (r r' : Result) (rs : List Result) :
    outBeats (r :: r' :: rs) = ⟨some (resultBus r), false⟩ :: outBeats (r' :: rs) := rfl

theorem map_result_outBeats : ∀ {rs : List Result}, rs ≠ [] →
    (outBeats rs).map PortOut.result = rs.map fun r => some (resultBus r)
  | [], h => absurd rfl h
  | [_], _ => rfl
  | r :: r' :: rs, _ => by
    rw [outBeats_cons_cons, List.map_cons, map_result_outBeats (List.cons_ne_nil r' rs)]
    rfl

theorem map_last_outBeats : ∀ {rs : List Result}, rs ≠ [] →
    (outBeats rs).map PortOut.last = List.replicate (rs.length - 1) false ++ [true]
  | [], h => absurd rfl h
  | [_], _ => rfl
  | r :: r' :: rs, _ => by
    rw [outBeats_cons_cons, List.map_cons, map_last_outBeats (List.cons_ne_nil r' rs)]
    rfl

theorem unitCode_ne_seven (u : Option MeterUnit) : unitCode u ≠ 7 := by
  rcases u with _ | _ | _ | _ | _ | _ | _ <;> decide

/-- The unit that a code stands for (R107). -/
def unitOfCode (c : BitVec 3) : Option MeterUnit :=
  if c = 1 then some .ohm
  else if c = 2 then some .ampere
  else if c = 3 then some .volt
  else if c = 4 then some .hertz
  else if c = 5 then some .celsius
  else if c = 6 then some .farad
  else none

theorem unitOfCode_unitCode (u : Option MeterUnit) : unitOfCode (unitCode u) = u := by
  rcases u with _ | _ | _ | _ | _ | _ | _ <;> rfl

/-- Settles O43. -/
theorem outputBeatsMarkTheLastResult : Obligations.OutputBeatsMarkTheLastResult :=
  ⟨fun _ h => ⟨map_result_outBeats h, map_last_outBeats h⟩, rfl, unitCode_ne_seven,
    Function.LeftInverse.injective unitOfCode_unitCode⟩

/-- Bit `i` of a number made from bits is bit `i` of the list. -/
theorem testBit_natOfBits : ∀ (bs : List Bool) (i : Nat), (natOfBits bs).testBit i = bs.getD i false
  | [], i => by simp [natOfBits]
  | b :: bs, 0 => by
    rw [natOfBits, Nat.testBit_zero]
    cases b <;> simp
  | b :: bs, i + 1 => by
    have hhalf : (b.toNat + 2 * natOfBits bs) / 2 = natOfBits bs := by
      have hb := b.toNat_le
      omega
    rw [natOfBits, Nat.testBit_succ, hhalf, testBit_natOfBits bs i]
    rfl

/-- Settles O44: the flag word has 22 bits, so none of the 22 flags is cut off. -/
theorem flagWordCarriesTheFlags : Obligations.FlagWordCarriesTheFlags := by
  intro g
  have hbit : ∀ i ∈ List.range 22, (flagWord g).getLsbD i = (flagList g).getD i false := by
    intro i hi
    rw [flagWord, BitVec.getLsbD_ofNat, testBit_natOfBits, decide_eq_true (List.mem_range.mp hi), Bool.true_and]
  rw [List.map_congr_left hbit]
  rfl

/-! ### The input ports (R126) -/

/-- A burst that goes on from bytes already received. -/
theorem sampleAll_sendBurst : ∀ {bytes : List (Nat × Byte)} (received : List Byte) (later : List Edge), bytes ≠ [] →
    sampleAll received (sendBurst bytes ++ later) =
      ((sampleAll [] later).1, ⟨.burst, received ++ bytes.map Prod.snd⟩ :: (sampleAll [] later).2)
  | [], _, _, h => absurd rfl h
  | [(wait, b)], received, later, _ => by
    rw [sendBurst, List.append_assoc, sampleAll_replicate_wait]
    rfl
  | (wait, b) :: next :: bytes, received, later, _ => by
    rw [sendBurst, List.append_assoc, sampleAll_replicate_wait, List.cons_append, sampleAll, List.isEmpty_cons,
      sample_byte, sampleAll_sendBurst (received ++ [b]) later (List.cons_ne_nil next bytes)]
    simp

/-- Settles O40. -/
theorem portsDeliverTheBurst : Obligations.PortsDeliverTheBurst :=
  fun _ later h => sampleAll_sendBurst [] later h

/-! ### The handshakes (R126) -/

theorem Wires.inReady_iff (w : Wires) : w.inReady = true ↔ w.block.inputs = [] := List.isEmpty_iff

/-- Settles O41. -/
theorem handshakesGuardTheWires : Obligations.HandshakesGuardTheWires := by
  intro w p
  refine ⟨w.inReady_iff, fun hready hrst => ?_, fun hrst => ?_, fun b bs hbeats hb hout => ?_, fun b bs hbeats htaken => ?_⟩
  · have hsample : sample w.inReady w.burst p = (w.burst, none) := by rw [hready, sample_not_ready w.burst hrst]
    simp [Wires.edge, hsample]
  · simp [Wires.edge, hrst]
  · have hwaits : b.result.isNone = false := by simpa [Option.isSome_iff_ne_none] using hb
    rw [Wires.edge, hbeats, takeBeat, hout, hwaits]
    rfl
  · rw [Wires.edge, hbeats, takeBeat, if_pos (by simpa using htaken)]

end Sys2Proof.Machine
end

section
/-! A burst on the wires: the cycles that send it, and the idle cycles in which the block runs its transaction (R120, R126). -/
namespace Sys2Proof.Machine

/-- The wires behind an edge that offers a byte to a block that is ready, while the beats wait. -/
theorem Wires.edge_byte {w : Wires} {b : Byte} (last : Bool) (hready : w.block.inputs = [])
    (hbeats : ∀ b ∈ w.beats, b.result ≠ none) :
    w.edge (bytePins b last) = { w with
      block := { w.block with inputs := if last then [⟨.burst, w.burst ++ [b]⟩] else [] }
      burst := if last then [] else w.burst ++ [b] } := by
  have hinReady : w.inReady = true := w.inReady_iff.mpr hready
  have htake : takeBeat (bytePins b last).outReady w.beats = w.beats := takeBeat_waits hbeats
  rw [Wires.edge, hinReady, htake, hready]
  cases last <;> rfl

/-- The cycles that send a burst place its PUSH as the block's only operation. -/
theorem Wires.run_sendTicks : ∀ {bytes : List Byte} {w : Wires}, bytes ≠ [] → w.block.inputs = [] →
    (∀ b ∈ w.beats, b.result ≠ none) →
    w.run (sendTicks bytes) = .next { w with
      block := { w.block with inputs := [⟨.burst, w.burst ++ bytes⟩] }
      burst := [] }
  | [], _, h, _, _ => absurd rfl h
  | [b], w, _, hready, hbeats => by
    have hclock : w.clock ⟨bytePins b true, false⟩ = .next (w.edge (bytePins b true)) := rfl
    rw [Wires.edge_byte true hready hbeats] at hclock
    exact Wires.run_cons [] hclock
  | b :: b' :: bytes, w, _, hready, hbeats => by
    have hclock : w.clock ⟨bytePins b false, false⟩ = .next (w.edge (bytePins b false)) := rfl
    rw [Wires.edge_byte false hready hbeats] at hclock
    have hrest := Wires.run_sendTicks (bytes := b' :: bytes)
      (w := { w with block := { w.block with inputs := [] }, burst := w.burst ++ [b] }) (by simp) rfl hbeats
    have hsend : sendTicks (b :: b' :: bytes) = ⟨bytePins b false, false⟩ :: sendTicks (b' :: bytes) := rfl
    rw [hsend]
    refine (Wires.run_cons _ hclock).trans (hrest.trans ?_)
    simp

/-- A transaction that goes on adds no beats. -/
theorem endBeats_of_frames {s t : State} (h : t.frames ≠ []) : endBeats s t = [] := by
  simp [endBeats, h]

/-- The step that ends a transaction adds its beats. -/
theorem endBeats_of_end {s t : State} (hs : s.inTransaction = true) (ht : t.frames = []) :
    endBeats s t = outBeats t.batch := by
  simp [endBeats, hs, ht]

theorem inTransaction_of_frame {s : State} {f : Frame} {fs : List Frame} (h : s.frames = f :: fs) :
    s.inTransaction = true := by
  simp [State.inTransaction, h]

theorem inTransaction_of_burst {s : State} {newBytes : List Byte} {later : List Stimulus} (hframes : s.frames = [])
    (hinputs : s.inputs = ⟨.burst, newBytes⟩ :: later) : s.inTransaction = true := by
  simp [State.inTransaction, hframes, hinputs]

/-- The idle cycles in which the block decodes the frames that wait: the last one brings the beats. -/
theorem Wires.run_idleTicks_frames : ∀ (fs : List Frame) {w : Wires} {waits : List Nat}, w.block.frames = fs → fs ≠ [] →
    (∀ b ∈ w.beats, b.result ≠ none) → waits.length = fs.length →
    w.run (idleTicks waits) = .next { w with
      block := { w.block with
        frames := []
        batch := w.block.batch ++ fs.map (decodeFrame w.block.build.segtab)
        results := w.block.results ++ fs.map (decodeFrame w.block.build.segtab) }
      beats := w.beats ++ outBeats (w.block.batch ++ fs.map (decodeFrame w.block.build.segtab)) }
  | f :: fs, w, k :: waits, hframes, _, hbeats, hlen => by
    let t : State := State.deliver { w.block with frames := fs } (decodeFrame w.block.build.segtab f)
    have hstep : step w.block = .next t := step_of_frame hframes
    rw [Wires.run_idleTicks_cons k waits hbeats (Wires.advance_of_step hstep)]
    cases fs with
    | nil =>
      obtain rfl : waits = [] := by simpa using hlen
      rw [endBeats_of_end (inTransaction_of_frame hframes) rfl]
      rfl
    | cons g fs =>
      rw [endBeats_of_frames (by simp [t]), List.append_nil]
      have hrest := Wires.run_idleTicks_frames (g :: fs) (w := { w with block := t }) (waits := waits) rfl (by simp) hbeats
        (by simpa using hlen)
      rw [hrest]
      simp [t, State.deliver]
  | [], _, _, _, h, _, _ => absurd rfl h
  | _ :: _, _, [], _, _, _, hlen => by simp at hlen

/-- The idle cycles in which the block runs a burst and decodes its frames. -/
theorem Wires.run_idleTicks_burst {w : Wires} {bytes : List Byte} {later : List Stimulus} {waits : List Nat}
    (hframes : w.block.frames = []) (hinputs : w.block.inputs = ⟨.burst, bytes⟩ :: later)
    (hbeats : ∀ b ∈ w.beats, b.result ≠ none) (hfits : fits w.block.build (push w.block.carry bytes).2 = true)
    (hwaits : waits.length = 1 + (push w.block.carry bytes).1.length) :
    w.run (idleTicks waits) = .next { w with
      block := w.block.afterTransaction bytes later
      beats := w.beats ++ outBeats ((push w.block.carry bytes).1.map (decodeFrame w.block.build.segtab)) } := by
  have hadvance := Wires.advance_of_step (step_of_burst hframes hinputs hfits)
  match waits, hwaits with
  | [], hwaits => exact absurd hwaits (by simp; omega)
  | k :: waits, hwaits =>
    rw [Wires.run_idleTicks_cons k waits hbeats hadvance]
    by_cases hnone : (push w.block.carry bytes).1 = []
    · obtain rfl : waits = [] := by simpa [hnone] using hwaits
      rw [endBeats_of_end (inTransaction_of_burst hframes hinputs) hnone]
      simp [idleTicks, Wires.run, State.afterPush, State.afterTransaction, hnone, hframes]
    · have hdecodes := Wires.run_idleTicks_frames (push w.block.carry bytes).1 (waits := waits)
        (w := { w with block := w.block.afterPush bytes later }) rfl hnone hbeats (by simp at hwaits; omega)
      rw [endBeats_of_frames hnone, List.append_nil, hdecodes]
      simp [State.afterPush, State.afterTransaction, hframes]

/-- Settles O42: the cycles that send the burst place its PUSH, and the idle cycles run it and decode its frames. -/
theorem burstOnTheWiresGivesItsBeats : Obligations.BurstOnTheWiresGivesItsBeats := by
  intro w bytes waits hbytes hburst hframes hinputs hbeats hfits hwaits
  let sent : Wires := ⟨{ w.block with inputs := [⟨.burst, bytes⟩] }, [], w.beats⟩
  have hsent : w.run (sendTicks bytes) = .next sent := by
    rw [Wires.run_sendTicks hbytes hinputs hbeats, hburst]
    rfl
  rw [Wires.run_append _ hsent, Wires.run_idleTicks_burst (w := sent) hframes rfl hbeats hfits hwaits]
  simp [sent, State.afterTransaction, blockPush, hinputs]

end Sys2Proof.Machine
end
